-- ==== Sys2Proof/Word.lean ====
section
/-! DEFINITION. The two word types of the engine (spec 00_scope.md R5, R6). -/

namespace Sys2Proof

/-- A 32-bit word: a register of `H`, `a..h` or `W`, a command word, a response datum (R5). -/
abbrev Word := BitVec 32

/-- An 8-bit byte: a message byte, a cell of `BLK`, an ASCII character (R5, R62). -/
abbrev Byte := BitVec 8

end Sys2Proof
end

