-- ==== Sys2Proof/Syntax.lean ====
section
/-! DEFINITION. The instructions: ten commands and five micro-operations, one constructor per row of the opcode table
(spec 30_encoding.md R60, R64, R68). -/

namespace Sys2Proof

/-- R60: the engine's two kinds of instruction. An operand has the width its format gives it (R61, R62, R63, R68); the
bounds that are tighter than the width are checked by `Instr.wf`. -/
inductive Instr
  /-- `NOP` (R140). -/
  | nop
  /-- `INIT` (R100). -/
  | init
  /-- `FINAL` (R107). -/
  | final
  /-- `PUSH1 b0` (R104). -/
  | push1 (b0 : Byte)
  /-- `PUSH2 b0, b1` (R105). -/
  | push2 (b0 b1 : Byte)
  /-- `PUSH3 b0, b1, b2` (R106). -/
  | push3 (b0 b1 b2 : Byte)
  /-- `RDST` (R141). -/
  | rdst
  /-- `RDLEN idx`, idx 0 or 1 (R142). -/
  | rdlen (idx : BitVec 4)
  /-- `RDH idx`, idx 0 to 7 (R143). -/
  | rdh (idx : BitVec 4)
  /-- `RDX idx`, idx 0 to 15 (R144). -/
  | rdx (idx : BitVec 4)
  /-- `LOADW` (R120). -/
  | loadw
  /-- `EXPAND t`, t 16 to 63 (R121). -/
  | expand (t : BitVec 6)
  /-- `SEED` (R122). -/
  | seed
  /-- `ROUND t`, t 0 to 63 (R123). -/
  | round (t : BitVec 6)
  /-- `FOLD` (R124). -/
  | fold
deriving DecidableEq, Repr

/-- An encoded instruction: a 32-bit command word, which the host sends, or a 9-bit micro-operation word, which the
sequencer reads from `UROM` (R60). -/
inductive CodeWord
  | command (c : BitVec 32)
  | microOp (u : BitVec 9)
deriving DecidableEq, Repr

end Sys2Proof
end

