-- ==== Sys2Proof/WellFormed.lean ====
section
/-! DEFINITION. The operand bounds that are tighter than the operand's width (spec 30_encoding.md R63, R68). -/

namespace Sys2Proof

/-- R63: `RDLEN` takes 0..1, `RDH` 0..7, `RDX` all sixteen values. R68: `EXPAND` takes 16..63, `ROUND` all 64 values. -/
def Instr.wf (i : Instr) : Bool :=
  match i with
  | .nop => true
  | .init => true
  | .final => true
  | .push1 _ => true
  | .push2 _ _ => true
  | .push3 _ _ _ => true
  | .rdst => true
  | .rdlen idx => decide (idx ≤ 1#4)
  | .rdh idx => decide (idx ≤ 7#4)
  | .rdx _ => true
  | .loadw => true
  | .expand t => decide (16#6 ≤ t)
  | .seed => true
  | .round _ => true
  | .fold => true

end Sys2Proof
end

