-- ==== Sys2Proof/Decode.lean ====
section
/-! DEFINITION. The decoder of command words and micro-operation words, total and rejecting by name, and the encoder
(spec 30_encoding.md R61 to R68). -/

namespace Sys2Proof

/-- Why a word is no instruction. The first three are the grounds of R65 for an illegal command word; the last three are
the words of R68 that lie outside every micro-operation pattern. -/
inductive Reject
  | unassignedOpcode
  | reservedBits
  | indexAboveBound
  | unassignedUop
  | operandNotZero
  | expandIndexBelow16
deriving DecidableEq, Repr

/-- Bits [31:24] of a command word (R61). -/
def opcodeOf (c : BitVec 32) : BitVec 8 := c.extractLsb' 24 8

/-- Format Z (R61): bits [23:0] are reserved and must be zero. -/
def decodeZ (c : BitVec 32) (i : Instr) : Except Reject Instr :=
  if c.extractLsb' 0 24 = 0#24 then .ok i else .error .reservedBits

/-- Format X (R61, R63): bits [23:4] are reserved, bits [3:0] are the index, at most `bound`. -/
def decodeX (c : BitVec 32) (bound : BitVec 4) (mk : BitVec 4 → Instr) : Except Reject Instr :=
  if c.extractLsb' 4 20 = 0#20 then
    if c.extractLsb' 0 4 ≤ bound then .ok (mk (c.extractLsb' 0 4)) else .error .indexAboveBound
  else .error .reservedBits

/-- The command decoder (R64, R66): total on the 2^32 words; an error is `ILLEGAL` (R65). -/
def decodeCommand (c : BitVec 32) : Except Reject Instr :=
  if opcodeOf c = 0x00#8 then decodeZ c .nop
  else if opcodeOf c = 0x01#8 then decodeZ c .init
  else if opcodeOf c = 0x02#8 then decodeZ c .final
  else if opcodeOf c = 0x11#8 then
    if c.extractLsb' 0 16 = 0#16 then .ok (.push1 (c.extractLsb' 16 8)) else .error .reservedBits
  else if opcodeOf c = 0x12#8 then
    if c.extractLsb' 0 8 = 0#8 then .ok (.push2 (c.extractLsb' 16 8) (c.extractLsb' 8 8)) else .error .reservedBits
  else if opcodeOf c = 0x13#8 then
    .ok (.push3 (c.extractLsb' 16 8) (c.extractLsb' 8 8) (c.extractLsb' 0 8))
  else if opcodeOf c = 0x20#8 then decodeZ c .rdst
  else if opcodeOf c = 0x21#8 then decodeX c 1#4 .rdlen
  else if opcodeOf c = 0x22#8 then decodeX c 7#4 .rdh
  else if opcodeOf c = 0x23#8 then decodeX c 15#4 .rdx
  else .error .unassignedOpcode

/-- The micro-operation decoder (R68): `uop` in bits [8:6], `t` in bits [5:0]; words outside the patterns are refused
(U4). -/
def decodeMicroOp (u : BitVec 9) : Except Reject Instr :=
  let uop : BitVec 3 := u.extractLsb' 6 3
  let t : BitVec 6 := u.extractLsb' 0 6
  if uop = 0#3 then if t = 0#6 then .ok .loadw else .error .operandNotZero
  else if uop = 1#3 then if 16#6 ≤ t then .ok (.expand t) else .error .expandIndexBelow16
  else if uop = 2#3 then if t = 0#6 then .ok .seed else .error .operandNotZero
  else if uop = 3#3 then .ok (.round t)
  else if uop = 4#3 then if t = 0#6 then .ok .fold else .error .operandNotZero
  else .error .unassignedUop

/-- The decoder: a command word decodes the same way in every mode, and the two kinds never mix (R60). -/
def decode (w : CodeWord) : Except Reject Instr :=
  match w with
  | .command c => decodeCommand c
  | .microOp u => decodeMicroOp u

/-- The encoder (R61, R64, R66 for commands; R68 for micro-operations): opcode, operands, zeros in the reserved bits. -/
def encode (i : Instr) : CodeWord :=
  match i with
  | .nop => .command (0x00#8 ++ 0#24)
  | .init => .command (0x01#8 ++ 0#24)
  | .final => .command (0x02#8 ++ 0#24)
  | .push1 b0 => .command (0x11#8 ++ b0 ++ 0#16)
  | .push2 b0 b1 => .command (0x12#8 ++ b0 ++ b1 ++ 0#8)
  | .push3 b0 b1 b2 => .command (0x13#8 ++ b0 ++ b1 ++ b2)
  | .rdst => .command (0x20#8 ++ 0#24)
  | .rdlen idx => .command (0x21#8 ++ 0#20 ++ idx)
  | .rdh idx => .command (0x22#8 ++ 0#20 ++ idx)
  | .rdx idx => .command (0x23#8 ++ 0#20 ++ idx)
  | .loadw => .microOp (0#3 ++ 0#6)
  | .expand t => .microOp (1#3 ++ t)
  | .seed => .microOp (2#3 ++ 0#6)
  | .round t => .microOp (3#3 ++ t)
  | .fold => .microOp (4#3 ++ 0#6)

/-- The `mask` and `match` columns of the opcode table (R64 for commands, R68 for micro-operations). -/
def tableRow (i : Instr) : Nat × Nat :=
  match i with
  | .nop => (0xFFFFFFFF, 0x00000000)
  | .init => (0xFFFFFFFF, 0x01000000)
  | .final => (0xFFFFFFFF, 0x02000000)
  | .push1 _ => (0xFF00FFFF, 0x11000000)
  | .push2 _ _ => (0xFF0000FF, 0x12000000)
  | .push3 _ _ _ => (0xFF000000, 0x13000000)
  | .rdst => (0xFFFFFFFF, 0x20000000)
  | .rdlen _ => (0xFFFFFFFE, 0x21000000)
  | .rdh _ => (0xFFFFFFF8, 0x22000000)
  | .rdx _ => (0xFFFFFFF0, 0x23000000)
  | .loadw => (0x1FF, 0x000)
  | .expand _ => (0x1C0, 0x040)
  | .seed => (0x1FF, 0x080)
  | .round _ => (0x1C0, 0x0C0)
  | .fold => (0x1FF, 0x100)

/-- The word the opcode table writes as the `nbits`-bit number `w`: a micro-operation word has 9 bits, so 16 in whole
bytes; a command word has 32. A number too large for its kind is no word. -/
def tableCodeWord (nbits w : Nat) : Option CodeWord :=
  if nbits ≤ 16 then
    if w < 2 ^ 9 then some (.microOp (BitVec.ofNat 9 w)) else none
  else if nbits ≤ 32 then
    if w < 2 ^ 32 then some (.command (BitVec.ofNat 32 w)) else none
  else none

/-- What the decoder reads from the word `w` of an opcode-table row of `nbits` bits. -/
def decodeTableWord (nbits w : Nat) : Option Instr :=
  match tableCodeWord nbits w with
  | none => none
  | some cw =>
    match decode cw with
    | .ok i => some i
    | .error _ => none

end Sys2Proof
end

