-- ==== Sys2Proof/Config.lean ====
section
/-! DEFINITION. What an implementation fixes (the parameter `PADCAP`) and the values the spec leaves free. -/

namespace Sys2Proof

/-- The one implementation parameter (R5, U8, D6): the capacity in bytes of the padded message the engine agrees to
process; `none` is the spec's `NONE`. It is fixed when the engine is built. It stands in `State` because the step
function has no other argument; no step writes it. DESIGN CHOICE, notes/assumptions/1. -/
structure Config where
  padcap : Option Nat
deriving DecidableEq, Repr

namespace Config

/-- The domain of `PADCAP` (R5): `NONE`, or a multiple of 64 from 64 to 2^61. -/
def wf (c : Config) : Bool :=
  match c.padcap with
  | none => true
  | some p => p % 64 == 0 && decide (64 ≤ p) && decide (p ≤ 2 ^ 61)

/-- The reference value 4096 (R5). -/
def reference : Config := ⟨some 4096⟩

/-- FREE VALUE (R29, R190, U2): the word that datapath register number `i` holds after the `n`-th reset event of a run.
`i` counts `H[0..7]` as 0..7, `a..h` as 8..15 and `W[0..63]` as 16..79. It has no body: nothing can be proved of a
value of it. notes/assumptions/4. -/
opaque resetWord : Nat → Nat → Word

/-- FREE VALUE (R29, R190, U2): the byte that `BLK[p]` holds after the `n`-th reset event of a run. It has no body.
notes/assumptions/4. -/
opaque resetByte : Nat → Nat → Byte

end Config

end Sys2Proof
end

