-- ==== Sys2Proof/Machine/State.lean ====
section
/-! DEFINITION. The state of the engine, the reasons a step can stop, and the state after reset (spec 10_state.md). -/

namespace Sys2Proof.Machine

/-- The mode register `MODE`, 2 bits, four values, all used (R20); the numbers are in `Mode.code`. -/
inductive Mode
  | idle
  | absorb
  | done
  | error
deriving DecidableEq, Repr

/-- The four causes of a command fault (R160); the numbers are in `Cause.code`. A command fault is no stop of the model:
the engine answers it, goes to ERROR mode and takes the next command (R165). -/
inductive Cause
  | illegalCmd
  | badState
  | tooLarge
  | lenOverflow
deriving DecidableEq, Repr

/-- The response `(F, D)` to one command (R67): fault bit and 32 data bits. -/
structure Response where
  F : Bool
  D : Word
deriving DecidableEq, Repr

/-- What the host does to the engine (R7, R192): it sends a command word, or it asserts reset. -/
inductive HostInput
  | word (c : BitVec 32)
  | reset
deriving DecidableEq, Repr

/-- The working variables `a..h`: eight registers of 32 bits (R12). -/
structure Vars where
  a : Word
  b : Word
  c : Word
  d : Word
  e : Word
  f : Word
  g : Word
  h : Word
deriving DecidableEq, Repr

/-- The cells of the block buffer, in one canonical form (`Memory.wf`): addresses strictly rising and below 64, no cell
that holds what an unlisted address reads as. -/
abbrev Memory := List Host.Cell

/-- No step of the engine stops with a fault: every command has a response in every state, and a refused command is
answered by the fault entry of R165, which is a next state (R168: there is "no double-fault state and no lock-up").
So the type has no constructor; that is safe, since nothing is hidden by a stop. -/
inductive Fault
deriving DecidableEq, Repr

/-- Why a step has no meaning. -/
inductive Refusal
  /-- Raised by an arm of `exec` that has no meaning yet. No arm raises it. Safe. -/
  | notModelled (mnemonic : String)
  /-- Raised by `EXPAND t` with t < 16, a term the decoder never gives: R68 gives it "no meaning", U4 says `refuse`.
  Safe: `UROM` holds no such word. -/
  | expandIndexBelow16
  /-- Raised when the sequencer must perform the micro-operation at a `UPC` where `UROM` has no word, 115 to 127: R22 says
  `UPC` "never holds 115 to 127", U5 says `refuse`. Safe: no run reaches it. -/
  | upcOutsideUrom
deriving DecidableEq, Repr

/-- Everything the spec gives the engine (R10 to R24), then what the model adds to run it: `compressing` (R22: whether a
block compression is in progress), the parameter (R26), the two sides of the command port (R67, R192) and the counter of
the free values. -/
structure State where
  /-- Hash state `H[0..7]` (R10). -/
  H : Vector Word 8
  /-- Working variables `a..h` (R12). -/
  vars : Vars
  /-- Message schedule `W[0..63]` (R13). -/
  W : Vector Word 64
  /-- Block buffer `BLK[0..63]` (R15). -/
  BLK : Memory
  /-- Byte counter (R18). -/
  LEN : BitVec 64
  /-- Mode register (R20). -/
  MODE : Mode
  /-- Error code register, 4 bits (R21). -/
  ERRCODE : BitVec 4
  /-- Micro-sequencer counter, 7 bits (R22). -/
  UPC : BitVec 7
  /-- A block compression is in progress (R22; implied by R125). notes/assumptions/5. -/
  compressing : Bool
  /-- The parameter `PADCAP` (R5, R26). notes/assumptions/1. -/
  cfg : Config
  /-- What the host has sent and the engine has not yet taken, oldest first (R26, R192). notes/assumptions/2. -/
  port : List HostInput
  /-- The responses given, oldest first (R67). notes/assumptions/2. -/
  out : List Response
  /-- The model's own count of the reset events of the run, which the free values of R29 are applied to.
  notes/assumptions/4. -/
  resets : Nat
deriving DecidableEq, Repr

/-- What every step and every meaning answers. -/
abbrev Result := Host.Outcome State Fault Refusal

/-- The state after reset (R29): `MODE` = IDLE, `ERRCODE` = 0, `LEN` = 0, `UPC` = 0, no compression in progress. The spec
gives `H`, `a..h`, `W` and `BLK` no value; the model names zero (DESIGN CHOICE, unsafe, notes/assumptions/3). `PADCAP` is
the reference value 4096 (R5). Nothing sent, nothing answered. -/
def State.reset : State where
  H := Vector.replicate 8 0#32
  vars := ⟨0#32, 0#32, 0#32, 0#32, 0#32, 0#32, 0#32, 0#32⟩
  W := Vector.replicate 64 0#32
  BLK := []
  LEN := 0#64
  MODE := .idle
  ERRCODE := 0#4
  UPC := 0#7
  compressing := false
  cfg := Config.reference
  port := []
  out := []
  resets := 0

end Sys2Proof.Machine
end

