-- ==== Sys2Proof/Machine/Flags.lean ====
section
/-! DEFINITION. The engine has no flags, condition codes or predicates (spec 10_state.md R23). What takes their place is
here: the numbers of the modes (R20) and of the causes (R160), and the status word (R24). -/

namespace Sys2Proof.Machine

/-- R20: the two bits of `MODE`. -/
def Mode.code (m : Mode) : BitVec 2 :=
  match m with
  | .idle => 0#2
  | .absorb => 1#2
  | .done => 2#2
  | .error => 3#2

/-- R160: the cause codes. -/
def Cause.code (c : Cause) : BitVec 4 :=
  match c with
  | .illegalCmd => 1#4
  | .badState => 2#4
  | .tooLarge => 3#4
  | .lenOverflow => 4#4

/-- R24: the status word. `MODE` in [1:0], zeros in [3:2], `ERRCODE` in [7:4], `POS` = `LEN[5:0]` in [13:8], zeros in
[31:14]. -/
def State.status (s : State) : Word :=
  0#18 ++ s.LEN.extractLsb' 0 6 ++ s.ERRCODE ++ 0#2 ++ s.MODE.code

end Sys2Proof.Machine
end

