-- ==== Sys2Proof/Machine/Memory.lean ====
section
/-! DEFINITION. The block buffer `BLK` as a sparse list of cells (spec 10_state.md R15, 20_memory.md R40, R47): 64 cells
of 8 bits, addresses 0 to 63, direct indices, no alignment. -/

namespace Sys2Proof.Machine

/-- What a cell that nothing has written reads as. The spec leaves `BLK` unspecified after reset (R29); the model names
0x00. DESIGN CHOICE, unsafe, notes/assumptions/3. -/
def unwritten : Byte := 0x00#8

/-- The byte at an address. -/
def Memory.read (m : Memory) (p : Nat) : Byte :=
  match m with
  | [] => unwritten
  | (a, v) :: rest => if a = p then v else Memory.read rest p

/-- A byte written at an address; writing what an unlisted address reads as leaves no cell. -/
def Memory.write (m : Memory) (p : Nat) (b : Byte) : Memory :=
  match m with
  | [] => if b = unwritten then [] else [(p, b)]
  | (a, v) :: rest =>
    if p < a then if b = unwritten then (a, v) :: rest else (p, b) :: (a, v) :: rest
    else if p = a then if b = unwritten then rest else (p, b) :: rest
    else (a, v) :: Memory.write rest p b

/-- The bytes of a list written at consecutive addresses, in order (`MemWrite` of R6). -/
def Memory.writeBytes (m : Memory) (p : Nat) (bs : List Byte) : Memory :=
  match bs with
  | [] => m
  | b :: rest => Memory.writeBytes (Memory.write m p b) (p + 1) rest

/-- The cells from `lo` on rise strictly, lie below 64 and hold no byte that needs no cell. -/
def Memory.risingFrom (lo : Nat) (m : Memory) : Bool :=
  match m with
  | [] => true
  | (a, v) :: rest => decide (lo ≤ a) && decide (a < 64) && decide (v ≠ unwritten) && Memory.risingFrom (a + 1) rest

/-- The canonical form. -/
def Memory.wf (m : Memory) : Bool := Memory.risingFrom 0 m

/-- The 64 bytes of the block buffer, which `LOADW` reads whole (R40, R48). -/
def Memory.block (m : Memory) : Vector Byte 64 := Vector.ofFn (fun i => m.read i.val)

end Sys2Proof.Machine
end

