-- ==== Sys2Proof/Machine/Operands.lean ====
section
/-! DEFINITION. Operand and result assembly: byte order (spec 00_scope.md R6, 20_memory.md R42, R43, R45), the halves of
the byte counter (R142), hexadecimal characters (43_readout_commands.md R145, R146). A message byte of `PUSHn` is taken as
it is (R62); an index is unsigned and not scaled (R63). -/

namespace Sys2Proof.Machine

/-- `from_be32` of R6: four bytes, the first the most significant (R42). -/
def fromBe32 (b0 b1 b2 b3 : Byte) : Word := b0 ++ b1 ++ b2 ++ b3

/-- Byte `j` of `be64(v)` (R6, R43): byte 0 is `v[63:56]`, byte 7 is `v[7:0]`. -/
def be64Byte (v : BitVec 64) (j : Nat) : Byte := v.extractLsb' (56 - 8 * j) 8

/-- The four bytes of `be32(w)` (R6). -/
def be32 (w : Word) : List Byte :=
  [w.extractLsb' 24 8, w.extractLsb' 16 8, w.extractLsb' 8 8, w.extractLsb' 0 8]

/-- The eight bytes of `be64(v)` (R6, R43). -/
def be64 (v : BitVec 64) : List Byte := (List.range 8).map (be64Byte v)

/-- The half of the byte counter that `RDLEN` reads (R45, R142): 0 is the low half, 1 the high half. -/
def lenHalf (len : BitVec 64) (high : Bool) : Word :=
  if high then len.extractLsb' 32 32 else len.extractLsb' 0 32

/-- `hexdigit` of R145: the lowercase ASCII character of a 4-bit value. -/
def hexdigit (v : BitVec 4) : Byte :=
  if v < 10#4 then 0x30#8 + v.setWidth 8 else 0x61#8 + (v.setWidth 8 - 10#8)

/-- Nibble `n` of a word, nibble 0 the most significant (R146): bits [31-4n : 28-4n]. -/
def nibble (w : Word) (n : Nat) : BitVec 4 := w.extractLsb' (28 - 4 * n) 4

/-- Character `X[k]` of `hexser(H)` (R146): nibble k mod 8 of `H[k div 8]`. -/
def hexChar (h : Vector Word 8) (k : Fin 64) : Byte :=
  hexdigit (nibble (h[k.val / 8]'(by omega)) (k.val % 8))

/-- `hexser(H)` of R146, which is `HEX[0..63]` of R25: 64 characters, no terminator. -/
def hexser (h : Vector Word 8) : Vector Byte 64 := Vector.ofFn (hexChar h)

/-- The four characters `X[4j] .. X[4j+3]` in one word, the first in bits [31:24] (R45, R144). -/
def hexQuad (h : Vector Word 8) (j : BitVec 4) : Word :=
  let x := hexser h
  have hj : j.toNat < 16 := j.isLt
  fromBe32 (x[4 * j.toNat]) (x[4 * j.toNat + 1]) (x[4 * j.toNat + 2]) (x[4 * j.toNat + 3])

end Sys2Proof.Machine
end

