-- ==== Sys2Proof/Machine/Primitives.lean ====
section
/-! DEFINITION. The bit-mixing primitives (spec 40_primitives.md R80 to R90). `a +32 b` (R81) is the addition of
`BitVec 32`: the carry out of bit 31 is dropped. No primitive reads or writes state. -/

namespace Sys2Proof.Machine

/-- R83, U1: circular right rotation, defined only for 0 < n < 32 (D25): the proof argument refuses every other amount. -/
def rotr (x : Word) (n : Nat) (_domain : 0 < n ∧ n < 32 := by decide) : Word :=
  (x >>> n) ||| (x <<< (32 - n))

/-- R84: logical right shift; zeros enter at bit 31. -/
def shr (x : Word) (n : Nat) : Word := x >>> n

/-- R85: bit of `y` where the bit of `x` is 1, else bit of `z`. -/
def choose (x y z : Word) : Word := (x &&& y) ||| (~~~x &&& z)

/-- R86: bitwise majority vote. -/
def majority (x y z : Word) : Word := (x &&& y) ||| (x &&& z) ||| (y &&& z)

/-- R87: round scrambler of `a`, rotations 2, 13, 22. -/
def sigma0 (x : Word) : Word := rotr x 2 ^^^ rotr x 13 ^^^ rotr x 22

/-- R88: round scrambler of `e`, rotations 6, 11, 25. -/
def sigma1 (x : Word) : Word := rotr x 6 ^^^ rotr x 11 ^^^ rotr x 25

/-- R89: schedule scrambler of `W[t-15]`, rotations 7, 18, shift 3. -/
def gamma0 (x : Word) : Word := rotr x 7 ^^^ rotr x 18 ^^^ shr x 3

/-- R90: schedule scrambler of `W[t-2]`, rotations 17, 19, shift 10. -/
def gamma1 (x : Word) : Word := rotr x 17 ^^^ rotr x 19 ^^^ shr x 10

/-- R121: the schedule word made from `W[t-2]`, `W[t-7]`, `W[t-15]`, `W[t-16]`, in this order. -/
def scheduleWord (w2 w7 w15 w16 : Word) : Word := gamma1 w2 + w7 + gamma0 w15 + w16

/-- R123: the first temporary of a round. -/
def roundT1 (v : Vars) (k w : Word) : Word := v.h + sigma1 v.e + choose v.e v.f v.g + k + w

/-- R123: the second temporary of a round. -/
def roundT2 (v : Vars) : Word := sigma0 v.a + majority v.a v.b v.c

/-- R123: one round; all eight writes use the values from before it. -/
def roundVars (v : Vars) (k w : Word) : Vars where
  a := roundT1 v k w + roundT2 v
  b := v.a
  c := v.b
  d := v.c
  e := v.d + roundT1 v k w
  f := v.e
  g := v.f
  h := v.g

/-- R122: the working variables copied from a hash state. -/
def seedVars (h : Vector Word 8) : Vars := ⟨h[0], h[1], h[2], h[3], h[4], h[5], h[6], h[7]⟩

/-- R124: the working variables added into a hash state. -/
def foldHash (h : Vector Word 8) (v : Vars) : Vector Word 8 :=
  #v[h[0] + v.a, h[1] + v.b, h[2] + v.c, h[3] + v.d, h[4] + v.e, h[5] + v.f, h[6] + v.g, h[7] + v.h]

end Sys2Proof.Machine
end

