-- ==== Sys2Proof/Machine/Ops.lean ====
section
/-! DEFINITION. The shared operations over the state: accessors, the response, the fault entry and the return from it,
the mode check, the admission check, the reset event. -/

namespace Sys2Proof.Machine

/-- One operation after another; a stop of the first is the stop of both. -/
def andThen (r : Result) (k : State → Result) : Result :=
  match r with
  | .next s => k s
  | .fault f => .fault f
  | .refused q => .refused q

/-- `POS` of R19: `LEN mod 64`, the index in `BLK` where the next byte goes. -/
def State.pos (s : State) : Nat := s.LEN.toNat % 64

/-- `W[t]` (R40). -/
def State.wAt (s : State) (t : BitVec 6) : Word := s.W[t.toNat]'t.isLt

/-- `W[t] <- x` (R40). -/
def State.setW (s : State) (t : BitVec 6) (x : Word) : State := { s with W := s.W.set t.toNat x t.isLt }

/-- `H[i]` (R40). -/
def State.hAt (s : State) (i : BitVec 3) : Word := s.H[i.toNat]'i.isLt

/-- `BLK[p] <- b` (R40). -/
def State.setBlk (s : State) (p : Nat) (b : Byte) : State := { s with BLK := s.BLK.write p b }

/-- `BLK[p] <- ...` for consecutive cells from `p` on. -/
def State.setBlkBytes (s : State) (p : Nat) (bs : List Byte) : State := { s with BLK := s.BLK.writeBytes p bs }

/-- `UPC <- UPC + 1` (R127). -/
def State.nextUpc (s : State) : State := { s with UPC := s.UPC + 1#7 }

/-- `respond(F, D)` of R6, R67: the command's one response, after those of the earlier commands. -/
def State.respond (s : State) (f : Bool) (d : Word) : State := { s with out := s.out ++ [⟨f, d⟩] }

/-- `respond(0, STATUS())`: the status word of the state after the command's effect (R24). -/
def State.respondStatus (s : State) : State := s.respond false s.status

/-- TAKING A FAULT, `raise Cause` of R165: `ERRCODE` keeps the first cause since `INIT` or reset, `MODE` becomes ERROR, the
response names this command's cause; nothing else is written. -/
def raise (c : Cause) (s : State) : State :=
  let s1 : State := if s.MODE = .error then s else { s with ERRCODE := c.code }
  ({ s1 with MODE := .error } : State).respond true (c.code.setWidth 32)

/-- THE RETURN FROM A FAULT (R167) is the opening of a message by `INIT` (R100): `H <- IV`, `LEN <- 0`, `ERRCODE <- 0`,
`MODE <- ABSORB`; nothing of a failed message is restored. -/
def openMessage (s : State) : State :=
  { s with H := iv, LEN := 0#64, ERRCODE := 0#4, MODE := .absorb }

/-- The mode check of R162: a command not permitted in the mode raises BAD_STATE and does nothing else. -/
def requireMode (m : Mode) (s : State) (body : State → Result) : Result :=
  if s.MODE = m then body s else .next (raise .badState s)

/-- `padded_len(L)` of R101, exact on natural numbers (R82). -/
def paddedLen (l : Nat) : Nat := 64 * ((l + 72) / 64)

/-- The first test of R102: with the bytes added the message could no longer be padded within `PADCAP`. -/
def exceedsCapacity (c : Config) (l : Nat) : Bool :=
  match c.padcap with
  | none => false
  | some cap => decide (cap < paddedLen l)

/-- the admission check of R102: the cause it raises, if any; TOO_LARGE is tested first (R166). -/
def admission (n : Nat) (s : State) : Option Cause :=
  if exceedsCapacity s.cfg (s.LEN.toNat + n) then some .tooLarge
  else if 2 ^ 61 ≤ s.LEN.toNat + n then some .lenOverflow
  else none

/-- The reset event of R190, from any state: the control state of R29, the datapath at free values (U2), the parameter
and what the host has sent and received kept. notes/assumptions/4. -/
def resetEvent (s : State) : State where
  H := Vector.ofFn (fun i => Config.resetWord s.resets i.val)
  vars := ⟨Config.resetWord s.resets 8, Config.resetWord s.resets 9, Config.resetWord s.resets 10,
    Config.resetWord s.resets 11, Config.resetWord s.resets 12, Config.resetWord s.resets 13,
    Config.resetWord s.resets 14, Config.resetWord s.resets 15⟩
  W := Vector.ofFn (fun i => Config.resetWord s.resets (16 + i.val))
  BLK := Memory.writeBytes [] 0 ((List.range 64).map (Config.resetByte s.resets))
  LEN := 0#64
  MODE := .idle
  ERRCODE := 0#4
  UPC := 0#7
  compressing := false
  cfg := s.cfg
  port := s.port
  out := s.out
  resets := s.resets + 1

end Sys2Proof.Machine
end

