-- ==== Sys2Proof/Machine/MicroOps.lean ====
section
/-! DEFINITION. The five micro-operations of a block compression (spec 42_compression.md R120 to R124). Each reads all its
inputs from the state before it and writes all its outputs together (R48). -/

namespace Sys2Proof.Machine

/-- The schedule after `LOADW`: words 0..15 assembled from the block, most significant byte first; the others kept. -/
def loadedW (w : Vector Word 64) (b : Vector Byte 64) : Vector Word 64 :=
  Vector.ofFn (fun (i : Fin 64) =>
    if h : i.val < 16 then
      fromBe32 (b[4 * i.val]) (b[4 * i.val + 1]) (b[4 * i.val + 2]) (b[4 * i.val + 3])
    else w[i.val])

/-- `LOADW` (R120). -/
def execLoadw (s : State) : Result :=
  .next ({ s with W := loadedW s.W s.BLK.block } : State).nextUpc

/-- `EXPAND t` (R121), t from 16 on; R68 gives a smaller t no meaning (U4). -/
def execExpand (t : BitVec 6) (s : State) : Result :=
  if 16#6 ≤ t then
    .next (s.setW t (scheduleWord (s.wAt (t - 2#6)) (s.wAt (t - 7#6)) (s.wAt (t - 15#6)) (s.wAt (t - 16#6)))).nextUpc
  else .refused .expandIndexBelow16

/-- `SEED` (R122). -/
def execSeed (s : State) : Result :=
  .next ({ s with vars := seedVars s.H } : State).nextUpc

/-- `ROUND t` (R123). -/
def execRound (t : BitVec 6) (s : State) : Result :=
  .next ({ s with vars := roundVars s.vars (kAt t) (s.wAt t) } : State).nextUpc

/-- `FOLD` (R124): the last micro-operation of a block compression, which ends with it (R125, R127). -/
def execFold (s : State) : Result :=
  .next { s with H := foldHash s.H s.vars, UPC := 0#7, compressing := false }

end Sys2Proof.Machine
end

