-- ==== Sys2Proof/Machine/Sequencer.lean ====
section
/-! DEFINITION. The micro-sequencer: one micro-operation of `UROM`, and `COMPRESS` (spec 42_compression.md R125, R127). -/

namespace Sys2Proof.Machine

/-- The micro-operation at `UROM[UPC]`, decoded; none where `UROM` has no micro-operation (R22, U4, U5). -/
def microOpAt (u : BitVec 7) : Option Instr :=
  match uromAt u with
  | none => none
  | some w =>
    match decodeMicroOp w with
    | .ok i => some i
    | .error _ => none

/-- Perform one micro-operation; `UROM` holds no command (R60). -/
def performMicroOp (i : Instr) (s : State) : Result :=
  match i with
  | .loadw => execLoadw s
  | .expand t => execExpand t s
  | .seed => execSeed s
  | .round t => execRound t s
  | .fold => execFold s
  | .nop => .refused .upcOutsideUrom
  | .init => .refused .upcOutsideUrom
  | .final => .refused .upcOutsideUrom
  | .push1 _ => .refused .upcOutsideUrom
  | .push2 _ _ => .refused .upcOutsideUrom
  | .push3 _ _ _ => .refused .upcOutsideUrom
  | .rdst => .refused .upcOutsideUrom
  | .rdlen _ => .refused .upcOutsideUrom
  | .rdh _ => .refused .upcOutsideUrom
  | .rdx _ => .refused .upcOutsideUrom

/-- "perform the micro-operation UROM[u]" of R125, u = `UPC`. -/
def microStep (s : State) : Result :=
  match microOpAt s.UPC with
  | some i => performMicroOp i s
  | none => .refused .upcOutsideUrom

/-- The loop of R125: "repeat u <- UPC; perform UROM[u] until u = 114", with at most `n` passes. -/
def microLoop (n : Nat) (s : State) : Result :=
  match n with
  | 0 => .next s
  | k + 1 => andThen (microStep s) (fun s' => if s.UPC = 114#7 then .next s' else microLoop k s')

/-- `COMPRESS` of R125: 115 micro-operations from `UPC` = 0. -/
def compress (s : State) : Result := microLoop 115 { s with compressing := true }

end Sys2Proof.Machine
end

