-- ==== Sys2Proof/Machine/Message.lean ====
section
/-! DEFINITION. The message commands (spec 41_message_commands.md R100 to R107). -/

namespace Sys2Proof.Machine

/-- `absorb(b)` of R103. -/
def absorb (b : Byte) (s : State) : Result :=
  let s1 := s.setBlk s.pos b
  let s2 : State := { s1 with LEN := s1.LEN + 1#64 }
  if s2.pos = 0 then compress s2 else .next s2

/-- `absorb` of each byte, in message order. -/
def absorbAll (bs : List Byte) (s : State) : Result :=
  match bs with
  | [] => .next s
  | b :: rest => andThen (absorb b s) (absorbAll rest)

/-- What `PUSH1`, `PUSH2` and `PUSH3` share (R104 to R106): the mode check, the admission check of all the bytes (R102),
the bytes absorbed in order, the status. A refused command absorbs nothing (R46). -/
def pushAll (bs : List Byte) (s : State) : Result :=
  requireMode .absorb s (fun s =>
    match admission bs.length s with
    | some c => .next (raise c s)
    | none => andThen (absorbAll bs s) (fun s' => .next s'.respondStatus))

/-- The `BLK` of the last block of `FINAL`, before the length field (R107): the terminator at `p`, zeros up to `BLK[55]`;
where the length does not fit (p from 56 on), the block with the terminator is filled with zeros and compressed first. -/
def padBlocks (s : State) : Result :=
  let p := s.pos
  let s1 := s.setBlk p 0x80#8
  if 56 ≤ p then
    andThen (compress (s1.setBlkBytes (p + 1) (List.replicate (63 - p) 0x00#8)))
      (fun s2 => .next (s2.setBlkBytes 0 (List.replicate 56 0x00#8)))
  else .next (s1.setBlkBytes (p + 1) (List.replicate (55 - p) 0x00#8))

/-- `bitLength` of R107, `8 * LEN` on 64 bits; exact while `LEN < 2^61` (R82). -/
def State.bitLength (s : State) : BitVec 64 := s.LEN <<< 3

/-- `INIT` (R100), permitted in every mode; it is also the return from a fault (R167). -/
def execInit (s : State) : Result := .next (openMessage s).respondStatus

/-- `PUSH1 b0` (R104). -/
def execPush1 (b0 : Byte) (s : State) : Result := pushAll [b0] s

/-- `PUSH2 b0, b1` (R105). -/
def execPush2 (b0 b1 : Byte) (s : State) : Result := pushAll [b0, b1] s

/-- `PUSH3 b0, b1, b2` (R106). -/
def execPush3 (b0 b1 b2 : Byte) (s : State) : Result := pushAll [b0, b1, b2] s

/-- `FINAL` (R107): the padding, the length field, the last compression, DONE. `LEN` is not changed. -/
def execFinal (s : State) : Result :=
  requireMode .absorb s (fun s =>
    andThen (padBlocks s) (fun s1 =>
      andThen (compress (s1.setBlkBytes 56 (be64 s.bitLength))) (fun s2 =>
        .next ({ s2 with MODE := .done } : State).respondStatus)))

end Sys2Proof.Machine
end

