-- ==== Sys2Proof/Machine/Readout.lean ====
section
/-! DEFINITION. The read-out and inspection commands (spec 43_readout_commands.md R140 to R144). None writes anything but
its response when it succeeds (R49). -/

namespace Sys2Proof.Machine

/-- `NOP` (R140). -/
def execNop (s : State) : Result := .next s.respondStatus

/-- `RDST` (R141). -/
def execRdst (s : State) : Result := .next s.respondStatus

/-- `RDLEN idx` (R142); an index above 1 is an illegal command (R63), which the decoder never lets through. -/
def execRdlen (idx : BitVec 4) (s : State) : Result :=
  if idx ≤ 1#4 then .next (s.respond false (lenHalf s.LEN (idx == 1#4)))
  else .next (raise .illegalCmd s)

/-- `RDH idx` (R143); an index above 7 is an illegal command (R63), which the decoder never lets through. -/
def execRdh (idx : BitVec 4) (s : State) : Result :=
  if idx ≤ 7#4 then requireMode .done s (fun s => .next (s.respond false (s.hAt (idx.setWidth 3))))
  else .next (raise .illegalCmd s)

/-- `RDX idx` (R144). -/
def execRdx (idx : BitVec 4) (s : State) : Result :=
  requireMode .done s (fun s => .next (s.respond false (hexQuad s.H idx)))

end Sys2Proof.Machine
end

