-- ==== Sys2Proof/Machine/Dispatch.lean ====
section
/-! DEFINITION. The dispatch: one arm per instruction. -/

namespace Sys2Proof.Machine

/-- What an instruction does to the state. -/
def exec (i : Instr) (s : State) : Host.Outcome State Fault Refusal :=
  match i with
  | .nop => Sys2Proof.Machine.execNop s
  | .init => Sys2Proof.Machine.execInit s
  | .final => Sys2Proof.Machine.execFinal s
  | .push1 b0 => Sys2Proof.Machine.execPush1 b0 s
  | .push2 b0 b1 => Sys2Proof.Machine.execPush2 b0 b1 s
  | .push3 b0 b1 b2 => Sys2Proof.Machine.execPush3 b0 b1 b2 s
  | .rdst => Sys2Proof.Machine.execRdst s
  | .rdlen idx => Sys2Proof.Machine.execRdlen idx s
  | .rdh idx => Sys2Proof.Machine.execRdh idx s
  | .rdx idx => Sys2Proof.Machine.execRdx idx s
  | .loadw => Sys2Proof.Machine.execLoadw s
  | .expand t => Sys2Proof.Machine.execExpand t s
  | .seed => Sys2Proof.Machine.execSeed s
  | .round t => Sys2Proof.Machine.execRound t s
  | .fold => Sys2Proof.Machine.execFold s

end Sys2Proof.Machine
end

