-- ==== Sys2Proof/Machine/Fetch.lean ====
section
/-! DEFINITION. What the engine does next: the reset input, the micro-operation at `UPC` while a block compression is in
progress, else the next command word (spec 00_scope.md R7, 42_compression.md R125, 70_reset_and_hazards.md R190). -/

namespace Sys2Proof.Machine

/-- What is next, with the state from which it runs. -/
inductive Fetched
  /-- Nothing sent: the engine waits and all state holds its value (R177). -/
  | wait
  /-- The reset input is asserted (R190). -/
  | reset (s : State)
  /-- An instruction to run. -/
  | instr (i : Instr) (s : State)
  /-- A command word that decodes to nothing (R65). -/
  | illegal (s : State)
  /-- A compression in progress at a `UPC` without a micro-operation (U5). -/
  | noMicroOp
deriving DecidableEq, Repr

/-- Reset is immediate, even in a compression (R190); a compression in progress comes before the next command (R46); else
the oldest word that the host has sent is taken (R7). -/
def fetch (s : State) : Fetched :=
  match s.port with
  | .reset :: rest => .reset { s with port := rest }
  | .word c :: rest =>
    if s.compressing then
      match microOpAt s.UPC with
      | some i => .instr i s
      | none => .noMicroOp
    else
      match decodeCommand c with
      | .ok i => .instr i { s with port := rest }
      | .error _ => .illegal { s with port := rest }
  | [] =>
    if s.compressing then
      match microOpAt s.UPC with
      | some i => .instr i s
      | none => .noMicroOp
    else .wait

/-- The place in `UROM` that the sequencer must stand at to perform a word; 127, where `UROM` has no word, for a word that
`UROM` does not hold. -/
def fetchAddress (w : BitVec 9) : BitVec 7 := (uromAddress w).getD 127#7

/-- A state whose next step takes the given word: a command word stands first in the port; for a micro-operation word a
compression is in progress and `UPC` stands at it. -/
def withCodeWord (s : State) (w : CodeWord) : State :=
  match w with
  | .command c => { s with compressing := false, port := .word c :: s.port }
  | .microOp u =>
    { s with compressing := true, UPC := fetchAddress u, port := s.port.dropWhile (fun x => x == .reset) }

end Sys2Proof.Machine
end

