-- ==== Sys2Proof/Machine/Step.lean ====
section
/-! DEFINITION. One step of the engine. -/

namespace Sys2Proof.Machine

/-- One engine step (R7): take what is next, change the state as its rule says, give the response. An illegal command word
raises ILLEGAL_CMD in every mode (R161). -/
def step (s : State) : Host.Outcome State Fault Refusal :=
  match fetch s with
  | .wait => .next s
  | .reset s' => .next (resetEvent s')
  | .instr i s' => exec i s'
  | .illegal s' => .next (raise .illegalCmd s')
  | .noMicroOp => .refused .upcOutsideUrom

/-- `s` with the word `w` of an opcode-table row of `nbits` bits where the next step takes it. -/
def State.withFetchWord (s : State) (nbits w : Nat) : State :=
  match tableCodeWord nbits w with
  | some cw => withCodeWord s cw
  | none => s

end Sys2Proof.Machine
end

