-- ==== Sys2Proof/Machine/Assembler.lean ====
section
/-! DEFINITION. Command programs as text and the pseudo-instructions (spec 30_encoding.md R70, R71). No step of the machine
reads a text; a program is the list of command words that the host then sends. -/

namespace Sys2Proof.Machine

/-! ### The pseudo-instructions as instruction lists (R71) -/

/-- `PUSHB b0, ..., b(n-1)`: `PUSH3` for each complete group of three bytes from the left, then `PUSH2` or `PUSH1` for what
remains; nothing for no byte. -/
def pushB (bs : List Byte) : List Instr :=
  match bs with
  | b0 :: b1 :: b2 :: rest => .push3 b0 b1 b2 :: pushB rest
  | [b0, b1] => [.push2 b0 b1]
  | [b0] => [.push1 b0]
  | [] => []

/-- `PUSHR b, n`. -/
def pushR (b : Byte) (n : Nat) : List Instr := pushB (List.replicate n b)

/-- `DIGEST`. -/
def digestReads : List Instr := (List.range 8).map (fun i => .rdh (BitVec.ofNat 4 i))

/-- `HEXDIGEST`. -/
def hexDigestReads : List Instr := (List.range 16).map (fun i => .rdx (BitVec.ofNat 4 i))

/-- `LENGTH`. -/
def lengthReads : List Instr := [.rdlen 0#4, .rdlen 1#4]

/-- `HASH` of the bytes of its text: the document's `digest` operation as a command program. -/
def hashProgram (bs : List Byte) : List Instr := [.init] ++ pushB bs ++ [.final] ++ hexDigestReads

/-! ### The text (R70) -/

/-- A text is a list of characters. -/
abbrev Text := List Char

/-- A space, a tab or a carriage return; the spec names no blank. DESIGN CHOICE, notes/assumptions/14. -/
def isBlank (c : Char) : Bool := c == ' ' || c == '\t' || c == '\r'

def trimLeft (t : Text) : Text := t.dropWhile isBlank

def trim (t : Text) : Text := (trimLeft (trimLeft t).reverse).reverse

/-- The lines of a text. A line end ends its line always, also after an unpaired double quote or in a comment: a command
stands on one line and a comment ends with it (R70). That a quoted text therefore holds no line end is the model's reading
of R71, DESIGN CHOICE, notes/assumptions/14. -/
def splitLines (t : Text) : List Text :=
  match t with
  | [] => [[]]
  | c :: rest =>
    if c == '\n' then [] :: splitLines rest
    else
      match splitLines rest with
      | [] => [[c]]
      | l :: ls => (c :: l) :: ls

/-- The pieces of one line between separators; a separator inside double quotes does not count. DESIGN CHOICE,
notes/assumptions/14. -/
def pieces (sep : Char) (inQuotes : Bool) (t : Text) : List Text :=
  match t with
  | [] => [[]]
  | c :: rest =>
    if c == sep && !inQuotes then [] :: pieces sep false rest
    else
      match pieces sep (if c == '"' then !inQuotes else inQuotes) rest with
      | [] => [[c]]
      | p :: ps => (c :: p) :: ps

/-- The line without its comment: `;` starts a comment to the end of the line (R70), but not inside double quotes; quotes
after the `;` mean nothing. DESIGN CHOICE, notes/assumptions/14. -/
def withoutComment (line : Text) : Text := (pieces ';' false line).headD []

/-- The value of a hexadecimal digit, of either case. DESIGN CHOICE, notes/assumptions/14. -/
def digitValue (c : Char) : Option Nat :=
  let n := c.toNat
  if 48 ≤ n ∧ n ≤ 57 then some (n - 48)
  else if 97 ≤ n ∧ n ≤ 102 then some (n - 87)
  else if 65 ≤ n ∧ n ≤ 70 then some (n - 55)
  else none

/-- The value of a non-empty row of digits below the base. -/
def digitsValue (base : Nat) (acc : Nat) (t : Text) : Option Nat :=
  match t with
  | [] => some acc
  | c :: rest =>
    match digitValue c with
    | some d => if d < base then digitsValue base (base * acc + d) rest else none
    | none => none

/-- A number is decimal, or hexadecimal with the `0x` prefix. -/
def numberValue (t : Text) : Option Nat :=
  match t with
  | [] => none
  | '0' :: 'x' :: [] => none
  | '0' :: 'x' :: c :: rest => digitsValue 16 0 (c :: rest)
  | c :: rest => digitsValue 10 0 (c :: rest)

/-- All of the options, or none. -/
def allSome {α : Type} (os : List (Option α)) : Option (List α) :=
  match os with
  | [] => some []
  | none :: _ => none
  | some x :: rest => (allSome rest).map (fun xs => x :: xs)

/-- The operands of a line: numbers separated by commas; none for a blank row. -/
def operandValues (t : Text) : Option (List Nat) :=
  if t.isEmpty then some [] else allSome ((pieces ',' false t).map (fun p => numberValue (trim p)))

/-- A byte operand, 0 to 255. -/
def byteOperand (n : Nat) : Option Byte := if n < 256 then some (BitVec.ofNat 8 n) else none

/-- The bytes of a quoted text of ASCII characters, without its quotes (R71). A quote without its pair, a quote inside the
text and a character outside ASCII are assembly errors. DESIGN CHOICE, notes/assumptions/14. -/
def quotedBytes (t : Text) : Option (List Byte) :=
  match t with
  | '"' :: rest =>
    match rest.reverse with
    | '"' :: inside =>
      allSome (inside.reverse.map (fun c => if c.toNat < 128 && c != '"' then byteOperand c.toNat else none))
    | _ => none
  | _ => none

/-- An index operand, 0 to `bound`. -/
def indexOperand (bound n : Nat) : Option (BitVec 4) := if n ≤ bound then some (BitVec.ofNat 4 n) else none

/-- The words of commands. -/
def commandWords (is : List Instr) : List (BitVec 32) :=
  is.filterMap (fun i =>
    match encode i with
    | .command c => some c
    | .microOp _ => none)

/-- A command that takes no operand. -/
def withoutOperands (is : List Instr) (ops : List Nat) : Option (List (BitVec 32)) :=
  if ops.isEmpty then some (commandWords is) else none

/-- The words of one mnemonic with its numeric operands; none is an assembly error. -/
def assembleNumbers (mnemonic : Text) (ops : List Nat) : Option (List (BitVec 32)) :=
  if mnemonic = ['N', 'O', 'P'] then withoutOperands [.nop] ops
  else if mnemonic = ['I', 'N', 'I', 'T'] then withoutOperands [.init] ops
  else if mnemonic = ['F', 'I', 'N', 'A', 'L'] then withoutOperands [.final] ops
  else if mnemonic = ['R', 'D', 'S', 'T'] then withoutOperands [.rdst] ops
  else if mnemonic = ['D', 'I', 'G', 'E', 'S', 'T'] then withoutOperands digestReads ops
  else if mnemonic = ['H', 'E', 'X', 'D', 'I', 'G', 'E', 'S', 'T'] then withoutOperands hexDigestReads ops
  else if mnemonic = ['L', 'E', 'N', 'G', 'T', 'H'] then withoutOperands lengthReads ops
  else if mnemonic = ['P', 'U', 'S', 'H', 'B'] then
    (allSome (ops.map byteOperand)).map (fun bs => commandWords (pushB bs))
  else
    match ops with
    | [n] =>
      if mnemonic = ['P', 'U', 'S', 'H', '1'] then (byteOperand n).map (fun b => commandWords [.push1 b])
      else if mnemonic = ['R', 'D', 'L', 'E', 'N'] then (indexOperand 1 n).map (fun i => commandWords [.rdlen i])
      else if mnemonic = ['R', 'D', 'H'] then (indexOperand 7 n).map (fun i => commandWords [.rdh i])
      else if mnemonic = ['R', 'D', 'X'] then (indexOperand 15 n).map (fun i => commandWords [.rdx i])
      else if mnemonic = ['.', 'w', 'o', 'r', 'd'] then if n < 2 ^ 32 then some [BitVec.ofNat 32 n] else none
      else none
    | [m, n] =>
      if mnemonic = ['P', 'U', 'S', 'H', '2'] then
        match byteOperand m, byteOperand n with
        | some b0, some b1 => some (commandWords [.push2 b0 b1])
        | _, _ => none
      else if mnemonic = ['P', 'U', 'S', 'H', 'R'] then (byteOperand m).map (fun b => commandWords (pushR b n))
      else none
    | [l, m, n] =>
      if mnemonic = ['P', 'U', 'S', 'H', '3'] then
        match byteOperand l, byteOperand m, byteOperand n with
        | some b0, some b1, some b2 => some (commandWords [.push3 b0 b1 b2])
        | _, _, _ => none
      else none
    | _ => none

/-- The words of one line; a blank line has none; no result is an assembly error. -/
def assembleLine (line : Text) : Option (List (BitVec 32)) :=
  let t := trim (withoutComment line)
  let mnemonic := t.takeWhile (fun c => !isBlank c)
  let operands := trim (t.dropWhile (fun c => !isBlank c))
  if t.isEmpty then some []
  else if mnemonic = ['P', 'U', 'S', 'H', 'S'] then (quotedBytes operands).map (fun bs => commandWords (pushB bs))
  else if mnemonic = ['H', 'A', 'S', 'H'] then (quotedBytes operands).map (fun bs => commandWords (hashProgram bs))
  else
    match operandValues operands with
    | some ops => assembleNumbers mnemonic ops
    | none => none

/-- The words of a command program, one command a line (R70). An error on a line is an error of the program. -/
def assemble (text : Text) : Option (List (BitVec 32)) :=
  (allSome ((splitLines text).map assembleLine)).map List.flatten

end Sys2Proof.Machine
end

