-- ==== Sys2Proof/Machine/Digest.lean ====
section
/-! DEFINITION. The spec's own definitions of what the engine computes, as pure functions: the closed form of one block
compression (spec 42_compression.md R126), the padded message (41_message_commands.md R101) and the digest (R108). No
step of the machine calls them; the statements compare the machine with them. -/

namespace Sys2Proof.Machine

/-- The first `n` words of the schedule `w` of R126 for a block: words 0..15 from its bytes, the others by the recurrence.
Every index read is below the length of the list so far. -/
def schedulePrefix (b : Vector Byte 64) (n : Nat) : List Word :=
  match n with
  | 0 => []
  | t + 1 =>
    let w := schedulePrefix b t
    let byte (k : Nat) : Byte := b.toList.getD k 0#8
    let word (k : Nat) : Word := w.getD k 0#32
    w ++ [if t < 16 then fromBe32 (byte (4 * t)) (byte (4 * t + 1)) (byte (4 * t + 2)) (byte (4 * t + 3))
          else scheduleWord (word (t - 2)) (word (t - 7)) (word (t - 15)) (word (t - 16))]

/-- `w[t]` of R126. -/
def scheduleOf (b : Vector Byte 64) : Vector Word 64 :=
  Vector.ofFn (fun t => (schedulePrefix b 64).getD t.val 0#32)

/-- `(a_n, ..., h_n)` of R126: the working variables after the first `n` rounds. -/
def roundsOf (h : Vector Word 8) (w : Vector Word 64) (n : Nat) : Vars :=
  match n with
  | 0 => seedVars h
  | t + 1 => roundVars (roundsOf h w t) (kAt (BitVec.ofNat 6 t)) (w.toList.getD t 0#32)

/-- `compress(Hin, B)` of R126. -/
def compressBlock (h : Vector Word 8) (b : Vector Byte 64) : Vector Word 8 :=
  foldHash h (roundsOf h (scheduleOf b) 64)

/-- `Pad(M)` of R101: the message, 0x80, the zeros, the bit length as eight bytes. -/
def pad (m : List Byte) : List Byte :=
  m ++ [0x80#8] ++ List.replicate (paddedLen m.length - m.length - 9) 0x00#8
    ++ be64 (BitVec.ofNat 64 (8 * m.length))

/-- Bytes 64k .. 64k+63 of a byte sequence (`B_k` of R101 when the sequence is `Pad(M)`). -/
def blockOf (bs : List Byte) (k : Nat) : Vector Byte 64 :=
  Vector.ofFn (fun i => bs.getD (64 * k + i.val) 0#8)

/-- `compress` folded from the IV over the first `n` blocks of a byte sequence (R28 I5, R108). -/
def hashBlocks (bs : List Byte) (n : Nat) : Vector Word 8 :=
  match n with
  | 0 => iv
  | k + 1 => compressBlock (hashBlocks bs k) (blockOf bs k)

/-- `digest_words(M)` of R108. -/
def digestWords (m : List Byte) : Vector Word 8 := hashBlocks (pad m) (paddedLen m.length / 64)

end Sys2Proof.Machine
end

