-- ==== Sys2Proof/Safety.lean ====
section
/-! DEFINITION. The terms the statements use: the invariants of the spec (10_state.md R28), the permission table and the
mode table (60_exceptions.md R162, R172), what the host can observe (10_state.md R27), command sequences (20_memory.md
R53). -/

namespace Sys2Proof.Machine

/-- Between commands: no compression is in progress and `UPC` is 0 (R22, R28 I1). -/
structure State.Between (s : State) : Prop where
  upc : s.UPC = 0#7
  idleSequencer : s.compressing = false

/-- The admission check of R102 passes for `n` more bytes. -/
structure State.Admits (n : Nat) (s : State) : Prop where
  fits : ∀ cap, s.cfg.padcap = some cap → paddedLen (s.LEN.toNat + n) ≤ cap
  below : s.LEN.toNat + n < 2 ^ 61

/-- The invariants I1 to I4 of R28 that are about the control state, the domain of `PADCAP` (R5) and the canonical form
of `BLK`. -/
structure State.Inv (s : State) : Prop where
  between : s.Between
  errIff : s.ERRCODE ≠ 0#4 ↔ s.MODE = .error
  errBound : s.ERRCODE ≤ 4#4
  lenBound : s.LEN.toNat < 2 ^ 61
  lenFits : s.MODE = .absorb ∨ s.MODE = .done → ∀ cap, s.cfg.padcap = some cap → paddedLen s.LEN.toNat ≤ cap
  idleLen : s.MODE = .idle → s.LEN = 0#64
  blkForm : s.BLK.wf = true
  cfgDomain : s.cfg.wf = true

/-- R28 I5: `m` are the bytes absorbed since the last `INIT`. -/
structure State.HasAbsorbed (m : List Byte) (s : State) : Prop where
  len : s.LEN.toNat = m.length
  tail : ∀ p, p < s.pos → s.BLK.read p = m.getD (64 * (m.length / 64) + p) 0#8
  hash : s.H = hashBlocks m (m.length / 64)

/-- R28 I6: `H` is the digest of `m`, whose length is `LEN`. -/
structure State.HasDigest (m : List Byte) (s : State) : Prop where
  len : s.LEN.toNat = m.length
  hash : s.H = digestWords m

/-- R28 I5 and I6 for some message. -/
structure State.MessageInv (s : State) : Prop where
  absorbing : s.MODE = .absorb → ∃ m, s.HasAbsorbed m
  finished : s.MODE = .done → ∃ m, s.HasDigest m

/-- The commands, which the host sends (R60). -/
def isCommand (i : Instr) : Bool :=
  match i with
  | .nop => true
  | .init => true
  | .final => true
  | .push1 _ => true
  | .push2 _ _ => true
  | .push3 _ _ _ => true
  | .rdst => true
  | .rdlen _ => true
  | .rdh _ => true
  | .rdx _ => true
  | .loadw => false
  | .expand _ => false
  | .seed => false
  | .round _ => false
  | .fold => false

/-- The permission table of R162. A micro-operation is no command; the table has no row for it. -/
def permitted (i : Instr) (m : Mode) : Bool :=
  match i with
  | .nop => true
  | .init => true
  | .final => m == .absorb
  | .push1 _ => m == .absorb
  | .push2 _ _ => m == .absorb
  | .push3 _ _ _ => m == .absorb
  | .rdst => true
  | .rdlen _ => true
  | .rdh _ => m == .done
  | .rdx _ => m == .done
  | .loadw => false
  | .expand _ => false
  | .seed => false
  | .round _ => false
  | .fold => false

/-- The message bytes a command carries, in message order (R44, R62). -/
def messageBytes (i : Instr) : List Byte :=
  match i with
  | .push1 b0 => [b0]
  | .push2 b0 b1 => [b0, b1]
  | .push3 b0 b1 b2 => [b0, b1, b2]
  | .nop => []
  | .init => []
  | .final => []
  | .rdst => []
  | .rdlen _ => []
  | .rdh _ => []
  | .rdx _ => []
  | .loadw => []
  | .expand _ => []
  | .seed => []
  | .round _ => []
  | .fold => []

/-- The commands that may stand between the `INIT` and the `FINAL` of one message without a fault, within capacity: the
pushes, and `NOP`, `RDST`, `RDLEN` (R108, R162). -/
def insideMessage (i : Instr) : Bool :=
  match i with
  | .push1 _ => true
  | .push2 _ _ => true
  | .push3 _ _ _ => true
  | .nop => true
  | .rdst => true
  | .rdlen idx => decide (idx ≤ 1#4)
  | .init => false
  | .final => false
  | .rdh _ => false
  | .rdx _ => false
  | .loadw => false
  | .expand _ => false
  | .seed => false
  | .round _ => false
  | .fold => false

/-- The mode after a command, R172: a fault gives ERROR, else the entry of the command's column. -/
def modeAfter (i : Instr) (s : State) : Mode :=
  if permitted i s.MODE = false then .error
  else if messageBytes i ≠ [] ∧ admission (messageBytes i).length s ≠ none then .error
  else if i = .init then .absorb
  else if i = .final then .done
  else s.MODE

/-- The block that the bytes `bs` complete: the bytes of the block so far, then the first bytes of `bs` (R103, R105). -/
def filledBlock (s : State) (bs : List Byte) : Vector Byte 64 :=
  Vector.ofFn (fun i => if i.val < s.pos then s.BLK.read i.val else bs.getD (i.val - s.pos) 0#8)

/-- The first of the two blocks that `FINAL` compresses when the length field does not fit: the bytes of the block so
far, the terminator, zeros (R107). -/
def terminatedBlock (s : State) : Vector Byte 64 :=
  Vector.ofFn (fun i => if i.val < s.pos then s.BLK.read i.val else if i.val = s.pos then 0x80#8 else 0x00#8)

/-- One instruction after another (R53). -/
def execAll (is : List Instr) (s : State) : Result :=
  match is with
  | [] => .next s
  | i :: rest => andThen (exec i s) (execAll rest)

/-- All that the host can tell two engines between commands apart by is equal (R27): the parameter, the two sides of the
port, `MODE`, `ERRCODE`, `LEN`; of the datapath, `H` once `INIT` has written it and, while a message is open, the bytes of
the block so far. `W`, `a..h`, the rest of `BLK`, and `H` in IDLE and ERROR mode may differ. -/
structure SameObservable (s t : State) : Prop where
  betweenLeft : s.Between
  betweenRight : t.Between
  formLeft : s.BLK.wf = true
  formRight : t.BLK.wf = true
  cfg : s.cfg = t.cfg
  port : s.port = t.port
  out : s.out = t.out
  mode : s.MODE = t.MODE
  errcode : s.ERRCODE = t.ERRCODE
  len : s.LEN = t.LEN
  hash : s.MODE = .absorb ∨ s.MODE = .done → s.H = t.H
  blk : s.MODE = .absorb → ∀ p, p < s.pos → s.BLK.read p = t.BLK.read p

/-- Nothing but the datapath may differ: the frame of a micro-operation (R125). -/
structure SameControl (s t : State) : Prop where
  len : t.LEN = s.LEN
  mode : t.MODE = s.MODE
  errcode : t.ERRCODE = s.ERRCODE
  cfg : t.cfg = s.cfg
  port : t.port = s.port
  out : t.out = s.out
  resets : t.resets = s.resets
  blk : ∀ a, t.BLK.read a = s.BLK.read a

/-- The datapath and the counters are equal: the frame of a command that only answers, and of a fault (R49, R165). -/
structure SameData (s t : State) : Prop where
  hash : t.H = s.H
  vars : t.vars = s.vars
  sched : t.W = s.W
  blk : ∀ a, t.BLK.read a = s.BLK.read a
  len : t.LEN = s.LEN
  upc : t.UPC = s.UPC
  compressing : t.compressing = s.compressing
  cfg : t.cfg = s.cfg
  port : t.port = s.port
  resets : t.resets = s.resets

end Sys2Proof.Machine
end

