-- ==== Sys2Proof/Certificates/Slice0/Obligations.lean ====
section
/-! DEFINITION. The statements for the provers. -/

open Sys2Proof
open Sys2Proof.Machine

/-! ## Encodings -/

/-- R66, R68: decoding the encoding of a well-formed instruction gives it back, with every operand. -/
def Obligations.DecodeOfEncodeIsIdentity : Prop :=
  ∀ i : Instr, i.wf = true → decode (encode i) = .ok i

/-- R66, R68: every word that decodes is the encoding of what it decodes to, and that is well formed. -/
def Obligations.EncodeOfDecodeIsIdentity : Prop :=
  ∀ (w : CodeWord) (i : Instr), decode w = .ok i → i.wf = true ∧ encode i = w

/-- R64, R65: a word is a command exactly when its masked bits are the row's match value, its operands are the fields of
R61, and a word that matches no row is illegal. -/
def Obligations.CommandWordsByMaskAndMatch : Prop :=
  ∀ c : BitVec 32,
    (decodeCommand c = .ok .nop ↔ c &&& 0xFFFFFFFF#32 = 0x00000000#32) ∧
    (decodeCommand c = .ok .init ↔ c &&& 0xFFFFFFFF#32 = 0x01000000#32) ∧
    (decodeCommand c = .ok .final ↔ c &&& 0xFFFFFFFF#32 = 0x02000000#32) ∧
    (∀ b0, decodeCommand c = .ok (.push1 b0) ↔ c &&& 0xFF00FFFF#32 = 0x11000000#32 ∧ b0 = c.extractLsb' 16 8) ∧
    (∀ b0 b1, decodeCommand c = .ok (.push2 b0 b1) ↔
      c &&& 0xFF0000FF#32 = 0x12000000#32 ∧ b0 = c.extractLsb' 16 8 ∧ b1 = c.extractLsb' 8 8) ∧
    (∀ b0 b1 b2, decodeCommand c = .ok (.push3 b0 b1 b2) ↔
      c &&& 0xFF000000#32 = 0x13000000#32 ∧ b0 = c.extractLsb' 16 8 ∧ b1 = c.extractLsb' 8 8 ∧
        b2 = c.extractLsb' 0 8) ∧
    (decodeCommand c = .ok .rdst ↔ c &&& 0xFFFFFFFF#32 = 0x20000000#32) ∧
    (∀ idx, decodeCommand c = .ok (.rdlen idx) ↔ c &&& 0xFFFFFFFE#32 = 0x21000000#32 ∧ idx = c.extractLsb' 0 4) ∧
    (∀ idx, decodeCommand c = .ok (.rdh idx) ↔ c &&& 0xFFFFFFF8#32 = 0x22000000#32 ∧ idx = c.extractLsb' 0 4) ∧
    (∀ idx, decodeCommand c = .ok (.rdx idx) ↔ c &&& 0xFFFFFFF0#32 = 0x23000000#32 ∧ idx = c.extractLsb' 0 4) ∧
    ((∃ r, decodeCommand c = .error r) ↔
      c &&& 0xFFFFFFFF#32 ≠ 0x00000000#32 ∧ c &&& 0xFFFFFFFF#32 ≠ 0x01000000#32 ∧
      c &&& 0xFFFFFFFF#32 ≠ 0x02000000#32 ∧ c &&& 0xFF00FFFF#32 ≠ 0x11000000#32 ∧
      c &&& 0xFF0000FF#32 ≠ 0x12000000#32 ∧ c &&& 0xFF000000#32 ≠ 0x13000000#32 ∧
      c &&& 0xFFFFFFFF#32 ≠ 0x20000000#32 ∧ c &&& 0xFFFFFFFE#32 ≠ 0x21000000#32 ∧
      c &&& 0xFFFFFFF8#32 ≠ 0x22000000#32 ∧ c &&& 0xFFFFFFF0#32 ≠ 0x23000000#32)

/-- R68: exactly the words of format U are micro-operations, and every other 9-bit word is refused. -/
def Obligations.MicroOperationWordsAreFormatU : Prop :=
  ∀ (u : BitVec 9) (i : Instr), decodeMicroOp u = .ok i ↔
    (i = .loadw ∧ u = 0x000#9) ∨
    (∃ t : BitVec 6, 16#6 ≤ t ∧ i = .expand t ∧ u = 0x040#9 + t.setWidth 9) ∨
    (i = .seed ∧ u = 0x080#9) ∨
    (∃ t : BitVec 6, i = .round t ∧ u = 0x0C0#9 + t.setWidth 9) ∨
    (i = .fold ∧ u = 0x100#9)

/-- R69: the 115 words of the micro-program ROM, the micro-operations they are, and nothing at 115 to 127. -/
def Obligations.MicroProgramContents : Prop :=
  uromAt 0#7 = some 0x000#9 ∧
  (∀ u : BitVec 7, 1#7 ≤ u → u ≤ 48#7 → uromAt u = some (0x040#9 + (u.setWidth 9 + 15#9))) ∧
  uromAt 49#7 = some 0x080#9 ∧
  (∀ u : BitVec 7, 50#7 ≤ u → u ≤ 113#7 → uromAt u = some (0x0C0#9 + (u.setWidth 9 - 50#9))) ∧
  uromAt 114#7 = some 0x100#9 ∧
  (∀ u : BitVec 7, 115#7 ≤ u → uromAt u = none) ∧
  microOpAt 0#7 = some .loadw ∧
  (∀ t : BitVec 6, 16#6 ≤ t → microOpAt (t.setWidth 7 - 15#7) = some (.expand t)) ∧
  microOpAt 49#7 = some .seed ∧
  (∀ t : BitVec 6, microOpAt (t.setWidth 7 + 50#7) = some (.round t)) ∧
  microOpAt 114#7 = some .fold

/-- 95_test_vectors.md section 5.1 and R68: words written out bit by bit, one of each instruction and some illegal ones. -/
def Obligations.WrittenOutWordsDecode : Prop :=
  decodeCommand 0x00000000#32 = .ok .nop ∧ decodeCommand 0x01000000#32 = .ok .init ∧
  decodeCommand 0x02000000#32 = .ok .final ∧ decodeCommand 0x11610000#32 = .ok (.push1 0x61#8) ∧
  decodeCommand 0x1280ff00#32 = .ok (.push2 0x80#8 0xff#8) ∧
  decodeCommand 0x13616263#32 = .ok (.push3 0x61#8 0x62#8 0x63#8) ∧ decodeCommand 0x20000000#32 = .ok .rdst ∧
  decodeCommand 0x21000001#32 = .ok (.rdlen 1#4) ∧ decodeCommand 0x22000007#32 = .ok (.rdh 7#4) ∧
  decodeCommand 0x2300000f#32 = .ok (.rdx 15#4) ∧ decodeMicroOp 0b000000000#9 = .ok .loadw ∧
  decodeMicroOp 0b001010001#9 = .ok (.expand 17#6) ∧ decodeMicroOp 0b010000000#9 = .ok .seed ∧
  decodeMicroOp 0b011111110#9 = .ok (.round 62#6) ∧ decodeMicroOp 0b100000000#9 = .ok .fold ∧
  decodeCommand 0x00ffffff#32 = .error .reservedBits ∧ decodeCommand 0x10610000#32 = .error .unassignedOpcode ∧
  decodeCommand 0x2200000f#32 = .error .indexAboveBound

/-! ## Primitives -/

/-- R83: the rotation on its domain: the formula and its equal forms, bit i of the result is bit (i + n) mod 32, the number
of 1 bits is kept. -/
def Obligations.RotationMovesBits : Prop :=
  ∀ (x : Word) (n : Nat) (h : 0 < n ∧ n < 32),
    rotr x n h = (x >>> n) ||| (x <<< (32 - n)) ∧
    rotr x n h = (x >>> n) ^^^ (x <<< (32 - n)) ∧
    rotr x n h = (x >>> n) + (x <<< (32 - n)) ∧
    (∀ i, i < 32 → (rotr x n h).getLsbD i = x.getLsbD ((i + n) % 32)) ∧
    (List.range 32).countP (fun i => (rotr x n h).getLsbD i) = (List.range 32).countP (fun i => x.getLsbD i) ∧
    rotr 0#32 n h = 0#32 ∧ rotr 0xFFFFFFFF#32 n h = 0xFFFFFFFF#32

/-- R84: the shift is floor(x / 2^n); bit i of the result is bit i + n, or 0 above bit 31. -/
def Obligations.ShiftIsFloorDivision : Prop :=
  ∀ (x : Word) (n : Nat), (shr x n).toNat = x.toNat / 2 ^ n ∧
    ∀ i, (shr x n).getLsbD i = (decide (i + n ≤ 31) && x.getLsbD (i + n))

/-- R85, R86: selection and majority, bit by bit, their equal forms and their corner cases. -/
def Obligations.ChooseAndMajorityPerBit : Prop :=
  ∀ x y z : Word,
    choose x y z = (x &&& y) ||| (~~~x &&& z) ∧
    choose x y z = (x &&& y) ^^^ (~~~x &&& z) ∧
    choose x y z = z ^^^ (x &&& (y ^^^ z)) ∧
    (∀ i, i < 32 → (choose x y z).getLsbD i = if x.getLsbD i then y.getLsbD i else z.getLsbD i) ∧
    choose 0xFFFFFFFF#32 y z = y ∧ choose 0#32 y z = z ∧ choose x y y = y ∧
    majority x y z = (x &&& y) ||| (x &&& z) ||| (y &&& z) ∧
    majority x y z = (x &&& y) ^^^ (x &&& z) ^^^ (y &&& z) ∧
    majority x y z = (x &&& y) ||| (z &&& (x ||| y)) ∧
    (∀ i, i < 32 → (majority x y z).getLsbD i =
      decide (2 ≤ (x.getLsbD i).toNat + (y.getLsbD i).toNat + (z.getLsbD i).toNat)) ∧
    majority y x z = majority x y z ∧ majority x z y = majority x y z ∧
    majority x x z = x ∧ majority 0#32 y z = y &&& z ∧ majority 0xFFFFFFFF#32 y z = y ||| z

/-- R87 to R90: the four scramblers bit by bit, their linearity over exclusive-or and their corner cases. -/
def Obligations.ScramblersPerBit : Prop :=
  (∀ (x : Word) (i : Nat), i < 32 →
    (sigma0 x).getLsbD i =
      (x.getLsbD ((i + 2) % 32) ^^ x.getLsbD ((i + 13) % 32) ^^ x.getLsbD ((i + 22) % 32)) ∧
    (sigma1 x).getLsbD i =
      (x.getLsbD ((i + 6) % 32) ^^ x.getLsbD ((i + 11) % 32) ^^ x.getLsbD ((i + 25) % 32)) ∧
    (gamma0 x).getLsbD i =
      (x.getLsbD ((i + 7) % 32) ^^ x.getLsbD ((i + 18) % 32) ^^ (decide (i + 3 ≤ 31) && x.getLsbD (i + 3))) ∧
    (gamma1 x).getLsbD i =
      (x.getLsbD ((i + 17) % 32) ^^ x.getLsbD ((i + 19) % 32) ^^ (decide (i + 10 ≤ 31) && x.getLsbD (i + 10)))) ∧
  (∀ x y : Word, sigma0 (x ^^^ y) = sigma0 x ^^^ sigma0 y ∧ sigma1 (x ^^^ y) = sigma1 x ^^^ sigma1 y ∧
    gamma0 (x ^^^ y) = gamma0 x ^^^ gamma0 y ∧ gamma1 (x ^^^ y) = gamma1 x ^^^ gamma1 y) ∧
  sigma0 0#32 = 0#32 ∧ sigma1 0#32 = 0#32 ∧ gamma0 0#32 = 0#32 ∧ gamma1 0#32 = 0#32 ∧
  sigma0 0xFFFFFFFF#32 = 0xFFFFFFFF#32 ∧ sigma1 0xFFFFFFFF#32 = 0xFFFFFFFF#32 ∧
  gamma0 0xFFFFFFFF#32 = 0x1FFFFFFF#32 ∧ gamma1 0xFFFFFFFF#32 = 0x003FFFFF#32

/-- R16: `K[t]` is the first 32 bits of the fractional part of the cube root of the t-th prime: with r the integer cube
root of p(t) * 2^96, it is r mod 2^32. The spec supplies this reading from general knowledge (G1). -/
def Obligations.RoundConstantsAreCubeRoots : Prop :=
  ∀ t : BitVec 6, ∃ r : Nat, r ^ 3 ≤ Nat.nth Nat.Prime t.toNat * 2 ^ 96 ∧
    Nat.nth Nat.Prime t.toNat * 2 ^ 96 < (r + 1) ^ 3 ∧ kAt t = BitVec.ofNat 32 r

/-! ## State, reset -/

/-- R24, R20: the fields of the status word. -/
def Obligations.StatusWordFields : Prop :=
  Mode.idle.code = 0#2 ∧ Mode.absorb.code = 1#2 ∧ Mode.done.code = 2#2 ∧ Mode.error.code = 3#2 ∧
  ∀ s : State, s.status.extractLsb' 0 2 = s.MODE.code ∧ s.status.extractLsb' 2 2 = 0#2 ∧
    s.status.extractLsb' 4 4 = s.ERRCODE ∧ (s.status.extractLsb' 8 6).toNat = s.LEN.toNat % 64 ∧
    s.status.extractLsb' 14 18 = 0#18

/-- R29: the control state after reset. Nothing is stated of `H`, `a..h`, `W`, `BLK`, which the spec leaves unspecified
(the model's values for them are its own, notes/assumptions/3). -/
def Obligations.ResetControlState : Prop :=
  State.reset.MODE = .idle ∧ State.reset.ERRCODE = 0#4 ∧ State.reset.LEN = 0#64 ∧ State.reset.UPC = 0#7 ∧
    State.reset.pos = 0

/-- R190, R29: the reset input takes effect at once, whatever is in progress, even a compression; it leaves the control
state of R29, the parameter, what the host sends next and the responses given. The datapath is free: nothing is stated of
it (notes/assumptions/4). -/
def Obligations.ResetInputEntersIdle : Prop :=
  ∀ (s : State) (rest : List HostInput), s.port = .reset :: rest →
    ∃ t, step s = .next t ∧ t.MODE = .idle ∧ t.ERRCODE = 0#4 ∧ t.LEN = 0#64 ∧ t.UPC = 0#7 ∧ t.compressing = false ∧
      t.cfg = s.cfg ∧ t.out = s.out ∧ t.port = rest

/-- R28: the invariants hold at reset. -/
def Obligations.InvariantsHoldAtReset : Prop :=
  State.reset.Inv ∧ State.reset.MessageInv

/-! ## Micro-operations -/

/-- R120, R42: `LOADW` assembles words 0..15 from the block, most significant byte first, and writes nothing else but
`UPC`. -/
def Obligations.LoadwAssemblesSixteenWords : Prop :=
  microOpAt 0#7 = some .loadw ∧
  ∀ s : State, ∃ t, exec .loadw s = .next t ∧
    (∀ (i : Nat) (h : i < 16), (t.W[i]).toNat =
      (s.BLK.read (4 * i)).toNat * 2 ^ 24 + (s.BLK.read (4 * i + 1)).toNat * 2 ^ 16
        + (s.BLK.read (4 * i + 2)).toNat * 2 ^ 8 + (s.BLK.read (4 * i + 3)).toNat) ∧
    (∀ (i : Nat) (h : i < 64), 16 ≤ i → t.W[i] = s.W[i]) ∧
    t.UPC = s.UPC + 1#7 ∧ t.H = s.H ∧ t.vars = s.vars ∧ SameControl s t

/-- R121: `EXPAND t`, t = 16..63, writes `W[t]` by the recurrence and nothing else but `UPC`. -/
def Obligations.ExpandComputesOneWord : Prop :=
  ∀ (n : Nat) (_h16 : 16 ≤ n) (h : n < 64), microOpAt (BitVec.ofNat 7 (n - 15)) = some (.expand (BitVec.ofNat 6 n)) ∧
    ∀ s : State, ∃ t, exec (.expand (BitVec.ofNat 6 n)) s = .next t ∧
      t.W[n] = gamma1 s.W[n - 2] + s.W[n - 7] + gamma0 s.W[n - 15] + s.W[n - 16] ∧
      (∀ (i : Nat) (hi : i < 64), i ≠ n → t.W[i] = s.W[i]) ∧
      t.UPC = s.UPC + 1#7 ∧ t.H = s.H ∧ t.vars = s.vars ∧ SameControl s t

/-- R68, U4: an `EXPAND` term with t below 16, which no word decodes to, is refused. -/
def Obligations.ExpandBelowSixteenIsRefused : Prop :=
  ∀ (t : BitVec 6) (s : State), t < 16#6 → exec (.expand t) s = .refused .expandIndexBelow16

/-- R122: `SEED` copies `H` into `a..h` and writes nothing else but `UPC`. -/
def Obligations.SeedCopiesHashState : Prop :=
  microOpAt 49#7 = some .seed ∧
  ∀ s : State, ∃ t, exec .seed s = .next t ∧
    t.vars = ⟨s.H[0], s.H[1], s.H[2], s.H[3], s.H[4], s.H[5], s.H[6], s.H[7]⟩ ∧
    t.UPC = s.UPC + 1#7 ∧ t.H = s.H ∧ t.W = s.W ∧ SameControl s t

/-- R123: `ROUND t`, all eight writes from the values before the round. -/
def Obligations.RoundShiftsWorkingVariables : Prop :=
  ∀ (n : Nat) (h : n < 64), microOpAt (BitVec.ofNat 7 (n + 50)) = some (.round (BitVec.ofNat 6 n)) ∧
    ∀ s : State, ∃ t, exec (.round (BitVec.ofNat 6 n)) s = .next t ∧
      (let v := s.vars
       let t1 := v.h + sigma1 v.e + choose v.e v.f v.g + kRom[n] + s.W[n]
       let t2 := sigma0 v.a + majority v.a v.b v.c
       t.vars = ⟨t1 + t2, v.a, v.b, v.c, v.d + t1, v.e, v.f, v.g⟩) ∧
      t.UPC = s.UPC + 1#7 ∧ t.H = s.H ∧ t.W = s.W ∧ SameControl s t

/-- R124: `FOLD` adds `a..h` into `H`, writes `UPC` 0 and nothing else. -/
def Obligations.FoldAddsWorkingVariables : Prop :=
  microOpAt 114#7 = some .fold ∧
  ∀ s : State, ∃ t, exec .fold s = .next t ∧
    t.H = #v[s.H[0] + s.vars.a, s.H[1] + s.vars.b, s.H[2] + s.vars.c, s.H[3] + s.vars.d,
      s.H[4] + s.vars.e, s.H[5] + s.vars.f, s.H[6] + s.vars.g, s.H[7] + s.vars.h] ∧
    t.UPC = 0#7 ∧ t.vars = s.vars ∧ t.W = s.W ∧ SameControl s t

/-- R126: `COMPRESS` from `UPC` = 0, which runs the 115 micro-operations, ends as the closed form says: `H`, `W` and `a..h`
are those of `compress(Hin, B)`, `UPC` is 0, everything else is unchanged. -/
def Obligations.CompressIsItsClosedForm : Prop :=
  ∀ s : State, s.UPC = 0#7 → ∃ t, compress s = .next t ∧
    t.H = compressBlock s.H s.BLK.block ∧ t.W = scheduleOf s.BLK.block ∧
    t.vars = roundsOf s.H (scheduleOf s.BLK.block) 64 ∧ t.UPC = 0#7 ∧ SameControl s t

/-- R127, R125: steps from a compression in progress at `UPC` = 0 take `UPC` through 0, 1, ..., 114, 0, each once, one
micro-operation a step; 115 such steps are `COMPRESS`. (That a compression is in progress is the model's own field,
notes/assumptions/5.) -/
def Obligations.StepsWalkTheMicroProgram : Prop :=
  ∀ s : State, s.compressing = true → s.UPC = 0#7 → (∀ rest, s.port ≠ .reset :: rest) →
    (∀ n, n ≤ 114 → ∃ t : State, Host.Core.run core n s = .next t ∧ t.UPC = BitVec.ofNat 7 n ∧ t.compressing = true) ∧
    Host.Core.run core 115 s = compress s ∧
    (∃ t : State, Host.Core.run core 115 s = .next t ∧ t.UPC = 0#7 ∧ t.compressing = false)

/-- R22, U5: a compression in progress at a `UPC` of 115 to 127, which no run reaches, is refused by name. -/
def Obligations.UpcOutsideUromIsRefused : Prop :=
  ∀ s : State, s.compressing = true → 115#7 ≤ s.UPC → (∀ rest, s.port ≠ .reset :: rest) →
    step s = .refused .upcOutsideUrom

/-! ## Message commands -/

/-- R100, R11: `INIT` in every mode: `H` is the IV, `LEN` and `ERRCODE` 0, ABSORB, the response (0, 1); nothing else is
written; twice is once but for the response; its word is exactly 0x01000000. -/
def Obligations.InitOpensMessage : Prop :=
  (∀ c : BitVec 32, c.extractLsb' 24 8 = 0x01#8 → (decodeCommand c = .ok .init ↔ c = 0x01000000#32)) ∧
  ∀ s : State,
    exec .init s = .next { s with
      H := #v[0x6a09e667#32, 0xbb67ae85#32, 0x3c6ef372#32, 0xa54ff53a#32,
        0x510e527f#32, 0x9b05688c#32, 0x1f83d9ab#32, 0x5be0cd19#32],
      LEN := 0#64, ERRCODE := 0#4, MODE := .absorb, out := s.out ++ [⟨false, 0x00000001#32⟩] } ∧
    ∃ t, exec .init s = .next t ∧ exec .init t = .next { t with out := t.out ++ [⟨false, 0x00000001#32⟩] }

/-- R103 to R106, R46: a `PUSHn` in ABSORB that is admitted absorbs its n bytes in order. Each goes to `BLK[LEN mod 64]` of
its turn and every other cell keeps its byte; when the bytes complete a block, `H`, `W` and `a..h` are those of its
compression, else they are unchanged; `LEN` counts the bytes; the response is the status word after the effect. -/
def Obligations.PushAbsorbsItsBytes : Prop :=
  ∀ (i : Instr) (s : State), messageBytes i ≠ [] → s.Between → s.BLK.wf = true → s.MODE = .absorb →
    s.Admits (messageBytes i).length →
    ∃ t, exec i s = .next t ∧
      t.LEN.toNat = s.LEN.toNat + (messageBytes i).length ∧
      (∀ k, k < (messageBytes i).length →
        t.BLK.read ((s.LEN.toNat + k) % 64) = (messageBytes i).getD k 0#8) ∧
      (∀ a, (∀ k, k < (messageBytes i).length → a ≠ (s.LEN.toNat + k) % 64) → t.BLK.read a = s.BLK.read a) ∧
      (s.pos + (messageBytes i).length < 64 → t.H = s.H ∧ t.W = s.W ∧ t.vars = s.vars) ∧
      (64 ≤ s.pos + (messageBytes i).length →
        t.H = compressBlock s.H (filledBlock s (messageBytes i)) ∧
        t.W = scheduleOf (filledBlock s (messageBytes i)) ∧
        t.vars = roundsOf s.H (scheduleOf (filledBlock s (messageBytes i))) 64) ∧
      t.out = s.out ++ [⟨false, t.status⟩] ∧ t.MODE = .absorb ∧ t.ERRCODE = s.ERRCODE ∧ t.UPC = s.UPC ∧
      t.compressing = s.compressing ∧ t.cfg = s.cfg ∧ t.port = s.port ∧ t.resets = s.resets

/-- R105, R106: but for the responses, an admitted `PUSH2` is its two `PUSH1` in a row and an admitted `PUSH3` its three. -/
def Obligations.PushIsItsBytesOneByOne : Prop :=
  ∀ (b0 b1 b2 : Byte) (s : State), s.Between → s.MODE = .absorb →
    (s.Admits 2 → ∃ t1 t2, exec (.push1 b0) s = .next t1 ∧ exec (.push1 b1) t1 = .next t2 ∧
      exec (.push2 b0 b1) s = .next { t2 with out := s.out ++ [⟨false, t2.status⟩] }) ∧
    (s.Admits 3 → ∃ t1 t2 t3, exec (.push1 b0) s = .next t1 ∧ exec (.push1 b1) t1 = .next t2 ∧
      exec (.push1 b2) t2 = .next t3 ∧
      exec (.push3 b0 b1 b2) s = .next { t3 with out := s.out ++ [⟨false, t3.status⟩] })

/-- R107: `FINAL` in ABSORB. `BLK` ends as the last block: the open bytes and the terminator if the length fits after
them, zeros, the bit length in cells 56 to 63, most significant byte first. `H` is the compression of that block, after
that of the block with the terminator when the length did not fit. `LEN` is unchanged, the mode is DONE. -/
def Obligations.FinalPadsAndCompresses : Prop :=
  ∀ s : State, s.Between → s.BLK.wf = true → s.MODE = .absorb → s.LEN.toNat < 2 ^ 61 →
    ∃ t, exec .final s = .next t ∧
      (∀ a, a < 56 → t.BLK.read a =
        if s.pos < 56 then if a < s.pos then s.BLK.read a else if a = s.pos then 0x80#8 else 0x00#8 else 0x00#8) ∧
      (∀ j, j < 8 → (t.BLK.read (56 + j)).toNat = 8 * s.LEN.toNat / 256 ^ (7 - j) % 256) ∧
      (∀ a, 64 ≤ a → t.BLK.read a = s.BLK.read a) ∧
      (let h := if s.pos < 56 then s.H else compressBlock s.H (terminatedBlock s)
       t.H = compressBlock h t.BLK.block ∧ t.W = scheduleOf t.BLK.block ∧
         t.vars = roundsOf h (scheduleOf t.BLK.block) 64) ∧
      t.LEN = s.LEN ∧ t.MODE = .done ∧ t.out = s.out ++ [⟨false, t.status⟩] ∧ t.ERRCODE = s.ERRCODE ∧
      t.UPC = s.UPC ∧ t.compressing = s.compressing ∧ t.cfg = s.cfg ∧ t.port = s.port ∧ t.resets = s.resets

/-- R101: the padded length is the least multiple of 64 from L + 9 on, and the padded message is the message, one 0x80,
(55 - L) mod 64 zeros and the bit length. -/
def Obligations.PaddedMessageShape : Prop :=
  ∀ m : List Byte,
    paddedLen m.length % 64 = 0 ∧ m.length + 9 ≤ paddedLen m.length ∧
    (∀ n, n % 64 = 0 → m.length + 9 ≤ n → paddedLen m.length ≤ n) ∧
    (pad m).length = paddedLen m.length ∧
    ∃ z : Nat, z ≤ 63 ∧ (z : Int) = (55 - (m.length : Int)) % 64 ∧ z = paddedLen m.length - m.length - 9 ∧
      pad m = m ++ [0x80#8] ++ List.replicate z 0x00#8 ++ be64 (BitVec.ofNat 64 (8 * m.length))

/-- R102: the admission check reads `LEN` and `PADCAP`; TOO_LARGE is tested first, then LEN_OVERFLOW; with a capacity in
its domain the first test is LEN + n > PADCAP - 9, it holds of every longer message too, and the second test never
decides. -/
def Obligations.AdmissionCheckArithmetic : Prop :=
  (∀ (n : Nat) (s : State),
    ((∃ cap, s.cfg.padcap = some cap ∧ cap < paddedLen (s.LEN.toNat + n)) → admission n s = some .tooLarge) ∧
    ((∀ cap, s.cfg.padcap = some cap → paddedLen (s.LEN.toNat + n) ≤ cap) → 2 ^ 61 ≤ s.LEN.toNat + n →
      admission n s = some .lenOverflow) ∧
    (admission n s = none ↔ s.Admits n) ∧
    (s.cfg.wf = true → s.cfg.padcap ≠ none → admission n s ≠ some .lenOverflow)) ∧
  (∀ cap l : Nat, cap % 64 = 0 → 64 ≤ cap → (cap < paddedLen l ↔ cap - 9 < l)) ∧
  (∀ l l' : Nat, l ≤ l' → paddedLen l ≤ paddedLen l')

/-- R163, R164, R166: a `PUSHn` in ABSORB that is not admitted takes the fault entry with the cause the admission check
gives, whatever its bytes, and absorbs none of them. -/
def Obligations.PushNotAdmittedFaults : Prop :=
  ∀ (i : Instr) (s : State) (c : Cause), messageBytes i ≠ [] → s.MODE = .absorb →
    admission (messageBytes i).length s = some c →
    exec i s = .next (raise c s) ∧ (c = .tooLarge ∨ c = .lenOverflow)

/-! ## Read-out commands -/

/-- R140, R141: `NOP` and `RDST` answer the status word and write nothing, in every mode; their words are exactly 0x00000000
and 0x20000000. -/
def Obligations.NopAndRdstAnswerStatus : Prop :=
  (∀ c : BitVec 32, c.extractLsb' 24 8 = 0x00#8 → (decodeCommand c = .ok .nop ↔ c = 0x00000000#32)) ∧
  (∀ c : BitVec 32, c.extractLsb' 24 8 = 0x20#8 → (decodeCommand c = .ok .rdst ↔ c = 0x20000000#32)) ∧
  ∀ s : State, exec .nop s = .next { s with out := s.out ++ [⟨false, s.status⟩] } ∧
    exec .rdst s = .next { s with out := s.out ++ [⟨false, s.status⟩] }

/-- R142: `RDLEN 0` answers the low half of `LEN` and `RDLEN 1` the high half, in every mode, and writes nothing;
`LEN[63:61]` is 0 in every state that meets the invariant. That `exec` of a term with an index from 2 on raises ILLEGAL_CMD
is the model's choice, notes/assumptions/9 (DEDUCED): no word decodes to such a term, R65 puts the fault at decode. -/
def Obligations.RdlenAnswersHalfOfLen : Prop :=
  ∀ s : State,
    (∃ d : Word, exec (.rdlen 0#4) s = .next { s with out := s.out ++ [⟨false, d⟩] } ∧ d.toNat = s.LEN.toNat % 2 ^ 32) ∧
    (∃ d : Word, exec (.rdlen 1#4) s = .next { s with out := s.out ++ [⟨false, d⟩] } ∧ d.toNat = s.LEN.toNat / 2 ^ 32) ∧
    (∀ idx : BitVec 4, 2#4 ≤ idx → exec (.rdlen idx) s = .next (raise .illegalCmd s)) ∧
    (s.Inv → s.LEN.extractLsb' 61 3 = 0#3)

/-- R143: `RDH idx` answers `H[idx]` in DONE and writes nothing; it raises BAD_STATE in every other mode. That `exec` of a
term with an index from 8 on raises ILLEGAL_CMD, before the mode is looked at, is the model's choice, notes/assumptions/9
(DEDUCED): no word decodes to such a term, R143 and R65 put the fault at decode. -/
def Obligations.RdhAnswersDigestWord : Prop :=
  ∀ s : State,
    (∀ (n : Nat) (h : n < 8), s.MODE = .done →
      exec (.rdh (BitVec.ofNat 4 n)) s = .next { s with out := s.out ++ [⟨false, s.H[n]⟩] }) ∧
    (∀ idx : BitVec 4, idx < 8#4 → s.MODE ≠ .done → exec (.rdh idx) s = .next (raise .badState s)) ∧
    (∀ idx : BitVec 4, 8#4 ≤ idx → exec (.rdh idx) s = .next (raise .illegalCmd s))

/-- R144: `RDX idx` answers characters 4*idx .. 4*idx+3 of `hexser(H)` in DONE, the first in bits [31:24], and writes
nothing; they are the hexadecimal digits of half of `H[idx div 2]`; in every other mode it raises BAD_STATE. -/
def Obligations.RdxAnswersFourCharacters : Prop :=
  ∀ (n : Nat) (h : n < 16) (s : State),
    (s.MODE = .done → ∃ d : Word,
      exec (.rdx (BitVec.ofNat 4 n)) s = .next { s with out := s.out ++ [⟨false, d⟩] } ∧
      ∀ (k : Nat) (hk : k < 4), d.extractLsb' (24 - 8 * k) 8 = (hexser s.H)[4 * n + k] ∧
        d.extractLsb' (24 - 8 * k) 8 = hexdigit ((s.H[n / 2]).extractLsb' (28 - 4 * (4 * (n % 2) + k)) 4)) ∧
    (s.MODE ≠ .done → exec (.rdx (BitVec.ofNat 4 n)) s = .next (raise .badState s))

/-- R145, R146: the sixteen character codes in order; character k of the serialisation is the digit of nibble k mod 8,
counted from the most significant, of word k div 8. -/
def Obligations.HexSerialisation : Prop :=
  (List.range 16).map (fun v => hexdigit (BitVec.ofNat 4 v)) =
    [0x30#8, 0x31#8, 0x32#8, 0x33#8, 0x34#8, 0x35#8, 0x36#8, 0x37#8, 0x38#8, 0x39#8,
      0x61#8, 0x62#8, 0x63#8, 0x64#8, 0x65#8, 0x66#8] ∧
  ∀ (h : Vector Word 8) (k : Nat) (hk : k < 64),
    (hexser h)[k] = hexdigit (BitVec.ofNat 4 ((h[k / 8]).toNat / 16 ^ (7 - k % 8)))

/-- R144, R49: in DONE the sixteen `RDX` in a row succeed, write nothing but their responses, and their data, split into
bytes from bit 31 down, are the 64 characters of `hexser(H)`. -/
def Obligations.SixteenRdxSpellTheDigest : Prop :=
  ∀ s : State, s.MODE = .done → ∃ rs : List Response,
    execAll ((List.range 16).map (fun j => .rdx (BitVec.ofNat 4 j))) s = .next { s with out := s.out ++ rs } ∧
    (∀ r ∈ rs, r.F = false) ∧ rs.flatMap (fun r => be32 r.D) = (hexser s.H).toList

/-! ## Faults and modes -/

/-- R162: the permission table. A command not permitted in the mode raises BAD_STATE and does nothing else; a command
permitted in the mode does not raise it. -/
def Obligations.PermissionTable : Prop :=
  (∀ m : Mode, permitted .nop m = true ∧ permitted .init m = true ∧ permitted .rdst m = true ∧
    (∀ idx, permitted (.rdlen idx) m = true) ∧ (permitted .final m = true ↔ m = .absorb) ∧
    (∀ b0, permitted (.push1 b0) m = true ↔ m = .absorb) ∧
    (∀ b0 b1, permitted (.push2 b0 b1) m = true ↔ m = .absorb) ∧
    (∀ b0 b1 b2, permitted (.push3 b0 b1 b2) m = true ↔ m = .absorb) ∧
    (∀ idx, permitted (.rdh idx) m = true ↔ m = .done) ∧ (∀ idx, permitted (.rdx idx) m = true ↔ m = .done)) ∧
  ∀ (i : Instr) (s : State), isCommand i = true → i.wf = true →
    (permitted i s.MODE = false → exec i s = .next (raise .badState s)) ∧
    (permitted i s.MODE = true → exec i s ≠ .next (raise .badState s))

/-- R165, R160: the fault entry. `ERRCODE` takes the cause's number unless the mode was ERROR, the mode becomes ERROR, the
response is (1, the cause's number), and nothing else changes. -/
def Obligations.FaultEntry : Prop :=
  Cause.illegalCmd.code = 1#4 ∧ Cause.badState.code = 2#4 ∧ Cause.tooLarge.code = 3#4 ∧ Cause.lenOverflow.code = 4#4 ∧
  ∀ (c : Cause) (s : State),
    (s.MODE ≠ .error → (raise c s).ERRCODE = c.code) ∧ (s.MODE = .error → (raise c s).ERRCODE = s.ERRCODE) ∧
    (raise c s).MODE = .error ∧ (raise c s).out = s.out ++ [⟨true, c.code.setWidth 32⟩] ∧ SameData s (raise c s)

/-- R161: a word that does not decode raises ILLEGAL_CMD in every mode, before anything else is looked at. -/
def Obligations.IllegalWordFaultsInEveryMode : Prop :=
  ∀ (s : State) (c : BitVec 32) (r : Reject) (rest : List HostInput), s.compressing = false →
    s.port = .word c :: rest → decodeCommand c = .error r →
    step s = .next (raise .illegalCmd { s with port := rest })

/-- R168: in ERROR mode `NOP`, `RDST`, `RDLEN` succeed and change nothing, `INIT` leaves ERROR, every other legal command
answers (1, 2) and every illegal word (1, 1), and neither writes anything. -/
def Obligations.ErrorModeAnswersEverything : Prop :=
  ∀ s : State, s.MODE = .error →
    (∀ i : Instr, isCommand i = true → i.wf = true → i ≠ .init →
      (permitted i .error = true → ∃ d, exec i s = .next { s with out := s.out ++ [⟨false, d⟩] }) ∧
      (permitted i .error = false → exec i s = .next { s with out := s.out ++ [⟨true, 2#32⟩] })) ∧
    (∃ t, exec .init s = .next t ∧ t.MODE = .absorb ∧ t.ERRCODE = 0#4) ∧
    (∀ (c : BitVec 32) (r : Reject) (rest : List HostInput), s.compressing = false → s.port = .word c :: rest →
      decodeCommand c = .error r →
      step s = .next { s with port := rest, out := s.out ++ [⟨true, 1#32⟩] })

/-- R172: the mode after a command is the entry of the mode table. -/
def Obligations.ModeTable : Prop :=
  ∀ (i : Instr) (s t : State), isCommand i = true → i.wf = true → exec i s = .next t → t.MODE = modeAfter i s

/-- R172: a step enters IDLE only by the reset input, and DONE only by a successful `FINAL` from ABSORB. -/
def Obligations.IdleByResetAndDoneByFinalOnly : Prop :=
  ∀ s t : State, step s = .next t →
    (t.MODE = .idle → s.MODE = .idle ∨ ∃ rest, s.port = .reset :: rest) ∧
    (t.MODE = .done → s.MODE = .done ∨
      ∃ rest, s.port = .word 0x02000000#32 :: rest ∧ s.MODE = .absorb ∧
        exec .final { s with port := rest } = .next t)

/-- R167: a step leaves ERROR only by `INIT`, which opens a fresh message, or by reset. -/
def Obligations.ErrorLeftByInitOrResetOnly : Prop :=
  ∀ s t : State, s.MODE = .error → step s = .next t → t.MODE ≠ .error →
    (t.MODE = .idle ∧ ∃ rest, s.port = .reset :: rest) ∨
    (t.MODE = .absorb ∧ (∃ rest, s.port = .word 0x01000000#32 :: rest) ∧
      t.H = iv ∧ t.LEN = 0#64 ∧ t.ERRCODE = 0#4)

/-- R169, R165: a command that answers with the fault bit has changed nothing but `MODE`, `ERRCODE` and its response. -/
def Obligations.FaultsArePrecise : Prop :=
  ∀ (i : Instr) (s t : State) (d : Word), s.Between → isCommand i = true → exec i s = .next t →
    t.out = s.out ++ [⟨true, d⟩] → SameData s t ∧ t.MODE = .error ∧ (s.MODE = .error → t.ERRCODE = s.ERRCODE)

/-- R67, R46: between commands, a step on any of the 2^32 words completes, takes that word, gives exactly one response, a
fault response carries one of the four causes, and no compression is left in progress. -/
def Obligations.EveryWordGetsOneResponse : Prop :=
  ∀ (s : State) (c : BitVec 32) (rest : List HostInput), s.Between → s.port = .word c :: rest →
    ∃ (t : State) (r : Response), step s = .next t ∧ t.out = s.out ++ [r] ∧ t.port = rest ∧ t.Between ∧
      (r.F = true → r.D = 1#32 ∨ r.D = 2#32 ∨ r.D = 3#32 ∨ r.D = 4#32)

/-- R197, R168: the engine cannot hang: between commands every step answers a next state. -/
def Obligations.StepNeverStopsBetweenCommands : Prop :=
  ∀ s : State, s.Between → ∃ t, step s = .next t ∧ t.Between

/-! ## Whole-machine properties -/

/-- R7: when the word that is next decodes, a step is `exec` of that instruction, with the word taken from the port. Two
clauses are the model's choice: that with a compression in progress a step is `exec` of the one micro-operation at `UPC`
(notes/assumptions/5, DESIGN CHOICE), and that with nothing sent a step leaves the state as it is (notes/assumptions/8,
DEDUCED from R177). -/
def Obligations.StepRunsDecodedInstruction : Prop :=
  ∀ s : State,
    (∀ (c : BitVec 32) (i : Instr) (rest : List HostInput), s.compressing = false → s.port = .word c :: rest →
      decode (.command c) = .ok i → step s = exec i { s with port := rest }) ∧
    (∀ (u : BitVec 9) (i : Instr), s.compressing = true → (∀ rest, s.port ≠ .reset :: rest) → uromAt s.UPC = some u →
      decode (.microOp u) = .ok i → step s = exec i s) ∧
    (s.compressing = false → s.port = [] → step s = .next s)

/-- The model's own `withFetchWord` and `decodeTableWord` agree (notes/assumptions/12, DESIGN CHOICE; no rule of the spec
speaks of them): the next step after `withFetchWord` runs exactly the instruction that the decoder reads from the word, a
command from the port, a micro-operation from its place in `UROM` (every micro-operation has one, R69). -/
def Obligations.FetchWordIsRunNext : Prop :=
  ∀ (s : State) (nbits w : Nat) (i : Instr), decodeTableWord nbits w = some i →
    (isCommand i = true → step (s.withFetchWord nbits w) = exec i { s with compressing := false }) ∧
    (isCommand i = false → step (s.withFetchWord nbits w) = exec i (s.withFetchWord nbits w))

/-- R28 I1 to I4: every step keeps the invariant, from every state that meets it. -/
def Obligations.StepKeepsInvariant : Prop :=
  ∀ s t : State, s.Inv → step s = .next t → t.Inv

/-- R28 I5, I6: every step keeps "what is in the engine is the hash of a message so far": in ABSORB, `BLK` and `H` are those
of the bytes absorbed; in DONE, `H` is the digest of a message of `LEN` bytes. -/
def Obligations.StepKeepsMessageInvariant : Prop :=
  ∀ s t : State, s.Inv → s.MessageInv → step s = .next t → t.MessageInv

/-- R27, R29, R52: hidden state is never observed. Two engines that the host cannot tell apart stay so, step by step, with
the same responses, whatever `W`, `a..h`, the unwritten part of `BLK`, and `H` outside ABSORB and DONE hold. -/
def Obligations.HiddenStateIsNeverObserved : Prop :=
  ∀ s t s' : State, SameObservable s t → step s = .next s' → ∃ t', step t = .next t' ∧ SameObservable s' t'

/-- R108, R2: from any state between commands, `INIT`, any pushes with any `NOP`, `RDST`, `RDLEN` among them, then `FINAL`
leave in `H` the digest of the bytes pushed, whatever came before and however the bytes were cut, one response a
command. -/
def Obligations.DigestOfThePushedMessage : Prop :=
  ∀ (s : State) (is : List Instr), s.Between → s.BLK.wf = true → (∀ i ∈ is, insideMessage i = true) →
    (∀ cap, s.cfg.padcap = some cap → paddedLen (is.flatMap messageBytes).length ≤ cap) →
    (is.flatMap messageBytes).length < 2 ^ 61 →
    ∃ t, execAll ([.init] ++ is ++ [.final]) s = .next t ∧ t.MODE = .done ∧ t.ERRCODE = 0#4 ∧
      t.H = digestWords (is.flatMap messageBytes) ∧ t.LEN.toNat = (is.flatMap messageBytes).length ∧ t.Between ∧
      t.out.length = s.out.length + is.length + 2

/-- R71: `PUSHB` expands to pushes that carry exactly its bytes, in order: `PUSH3` for the complete groups of three, then one
shorter push for what remains. -/
def Obligations.PushbCarriesItsBytes : Prop :=
  ∀ bs : List Byte, (pushB bs).flatMap messageBytes = bs ∧ (pushB bs).length = (bs.length + 2) / 3 ∧
    (∀ i ∈ pushB bs, insideMessage i = true) ∧
    ∀ k, k < bs.length / 3 → (pushB bs)[k]? =
      some (.push3 (bs.getD (3 * k) 0#8) (bs.getD (3 * k + 1) 0#8) (bs.getD (3 * k + 2) 0#8))

/-- R71, R108, R144, R196: the command program `HASH`, the document's `digest` operation, run from any state between
commands, succeeds within capacity, and its last sixteen responses spell the 64 hexadecimal characters of the digest of
its bytes. -/
def Obligations.HashProgramSpellsTheDigest : Prop :=
  ∀ (s : State) (m : List Byte), s.Between → s.BLK.wf = true →
    (∀ cap, s.cfg.padcap = some cap → paddedLen m.length ≤ cap) → m.length < 2 ^ 61 →
    ∃ (t : State) (earlier rs : List Response), execAll (hashProgram m) s = .next t ∧ t.MODE = .done ∧
      t.out = s.out ++ earlier ++ rs ∧ rs.length = 16 ∧ (∀ r ∈ earlier ++ rs, r.F = false) ∧
      rs.flatMap (fun r => be32 r.D) = (hexser (digestWords m)).toList

/-- R5, R26: no step writes the parameter `PADCAP`, and none takes back a response. -/
def Obligations.ParameterIsConstantAndResponsesStay : Prop :=
  ∀ s t : State, step s = .next t → t.cfg = s.cfg ∧ ∃ rs : List Response, t.out = s.out ++ rs ∧ rs.length ≤ 1

/-- The canonical form of `BLK` is the model's choice (notes/assumptions/13, DESIGN CHOICE): two buffers in that form with
the same 64 bytes (R15) are equal data. -/
def Obligations.EqualBlocksAreEqualData : Prop :=
  ∀ m m' : Memory, m.wf = true → m'.wf = true → (∀ a, a < 64 → m.read a = m'.read a) → m = m'
end

