-- ==== Sys2Proof/Laws/Memory.lean ====
section
/-! SUPPORT. The laws of the block buffer: read after write, and that every write keeps the canonical form. -/

namespace Sys2Proof.Laws

open Sys2Proof.Machine

theorem read_cons (a : Nat) (v : Byte) (m : Memory) (p : Nat) :
    Memory.read ((a, v) :: m) p = if a = p then v else Memory.read m p := rfl

theorem read_nil (p : Nat) : Memory.read [] p = unwritten := rfl

/-- Below the first address of a rising list nothing is listed. -/
theorem read_of_lt (m : Memory) (lo p : Nat) (h : Memory.risingFrom lo m = true) (hp : p < lo) :
    Memory.read m p = unwritten := by
  induction m generalizing lo with
  | nil => rfl
  | cons c rest ih =>
    obtain ⟨a, v⟩ := c
    simp only [Memory.risingFrom, Bool.and_eq_true, decide_eq_true_eq] at h
    rw [read_cons, if_neg (by omega)]
    exact ih (a + 1) h.2 (by omega)

theorem risingFrom_mono (m : Memory) (lo hi : Nat) (h : Memory.risingFrom hi m = true) (hle : lo ≤ hi) :
    Memory.risingFrom lo m = true := by
  cases m with
  | nil => rfl
  | cons c rest =>
    obtain ⟨a, v⟩ := c
    simp only [Memory.risingFrom, Bool.and_eq_true, decide_eq_true_eq] at h ⊢
    exact ⟨⟨⟨by omega, h.1.1.2⟩, h.1.2⟩, h.2⟩

theorem risingFrom_write (m : Memory) (lo p : Nat) (b : Byte) (h : Memory.risingFrom lo m = true) (hlo : lo ≤ p)
    (hp : p < 64) : Memory.risingFrom lo (Memory.write m p b) = true := by
  induction m generalizing lo with
  | nil =>
    by_cases hb : b = unwritten <;> simp [Memory.write, Memory.risingFrom, hb, hlo, hp]
  | cons c rest ih =>
    obtain ⟨a, v⟩ := c
    have h' := h
    simp only [Memory.risingFrom, Bool.and_eq_true, decide_eq_true_eq] at h'
    obtain ⟨⟨⟨h1, h2⟩, h3⟩, h4⟩ := h'
    simp only [Memory.write]
    split
    · next hpa =>
      by_cases hb : b = unwritten
      · simpa [hb] using h
      · simp only [hb, if_false, Memory.risingFrom, Bool.and_eq_true, decide_eq_true_eq]
        exact ⟨⟨⟨hlo, hp⟩, hb⟩, ⟨⟨by omega, h2⟩, h3⟩, h4⟩
    · split
      · next hpa =>
        subst hpa
        by_cases hb : b = unwritten
        · simpa [hb] using risingFrom_mono rest lo (p + 1) h4 (by omega)
        · simp only [hb, if_false, Memory.risingFrom, Bool.and_eq_true, decide_eq_true_eq]
          exact ⟨⟨⟨h1, h2⟩, hb⟩, h4⟩
      · simp only [Memory.risingFrom, Bool.and_eq_true, decide_eq_true_eq]
        exact ⟨⟨⟨h1, h2⟩, h3⟩, ih (a + 1) h4 (by omega)⟩

/-- Every write inside the block keeps the canonical form. -/
theorem wf_write (m : Memory) (p : Nat) (b : Byte) (h : m.wf = true) (hp : p < 64) : (m.write p b).wf = true :=
  risingFrom_write m 0 p b h (Nat.zero_le p) hp

theorem wf_writeBytes (m : Memory) (p : Nat) (bs : List Byte) (h : m.wf = true) (hp : p + bs.length ≤ 64) :
    (m.writeBytes p bs).wf = true := by
  induction bs generalizing m p with
  | nil => exact h
  | cons b rest ih =>
    simp only [List.length_cons] at hp
    exact ih (m.write p b) (p + 1) (wf_write m p b h (by omega)) (by omega)

theorem wf_nil : Memory.wf [] = true := rfl

/-- A written byte reads back and every other address reads as before, in a rising list. -/
theorem read_write_from (m : Memory) (lo p q : Nat) (b : Byte) (h : Memory.risingFrom lo m = true) :
    (m.write p b).read q = if q = p then b else m.read q := by
  induction m generalizing lo with
  | nil =>
    by_cases hb : b = unwritten
    · by_cases hq : q = p <;> simp [Memory.write, hb, read_nil, hq]
    · by_cases hq : q = p
      · subst hq; simp [Memory.write, hb, read_cons]
      · simp [Memory.write, hb, read_cons, read_nil, hq, Ne.symm hq]
  | cons c rest ih =>
    obtain ⟨a, v⟩ := c
    have h' := h
    simp only [Memory.risingFrom, Bool.and_eq_true, decide_eq_true_eq] at h'
    obtain ⟨⟨⟨h1, h2⟩, h3⟩, h4⟩ := h'
    simp only [Memory.write]
    split
    · next hpa =>
      have hun : Memory.read ((a, v) :: rest) p = unwritten :=
        read_of_lt ((a, v) :: rest) a p (by
          simp only [Memory.risingFrom, Bool.and_eq_true, decide_eq_true_eq]
          exact ⟨⟨⟨le_refl a, h2⟩, h3⟩, h4⟩) hpa
      by_cases hb : b = unwritten
      · by_cases hq : q = p
        · subst hq; simp [hb, hun]
        · simp [hb, hq]
      · by_cases hq : q = p
        · subst hq; simp [hb, read_cons]
        · simp only [hb, if_false, hq]
          rw [read_cons, if_neg (Ne.symm hq)]
    · split
      · next hpa =>
        subst hpa
        by_cases hb : b = unwritten
        · simp only [hb, if_true]
          by_cases hq : q = p
          · subst hq; simpa using read_of_lt rest (q + 1) q h4 (by omega)
          · simp [hq, read_cons, Ne.symm hq]
        · simp only [hb, if_false, read_cons]
          by_cases hq : q = p
          · subst hq; simp
          · simp [hq, Ne.symm hq]
      · next hpa hne =>
        rw [read_cons, read_cons, ih (a + 1) h4]
        by_cases haq : a = q
        · subst haq; simp [Ne.symm hne]
        · simp [haq]

/-- Read after write (R53: "Every read returns the value of the most recent write"). -/
theorem read_write (m : Memory) (p q : Nat) (b : Byte) (h : m.wf = true) :
    (m.write p b).read q = if q = p then b else m.read q := read_write_from m 0 p q b h

/-- Bytes written from `p` on read back in order; every other address reads as before. -/
theorem read_writeBytes (m : Memory) (p q : Nat) (bs : List Byte) (h : m.wf = true) (hp : p + bs.length ≤ 64) :
    (m.writeBytes p bs).read q = if p ≤ q ∧ q < p + bs.length then bs.getD (q - p) 0#8 else m.read q := by
  induction bs generalizing m p with
  | nil => simp [Memory.writeBytes]
  | cons b rest ih =>
    simp only [List.length_cons] at hp ⊢
    simp only [Memory.writeBytes]
    rw [ih (m.write p b) (p + 1) (wf_write m p b h (by omega)) (by omega), read_write m p q b h]
    by_cases hq : q = p
    · subst hq; simp
    · by_cases h1 : p ≤ q ∧ q < p + (rest.length + 1)
      · rw [if_pos (by omega), if_pos h1]
        obtain ⟨k, rfl⟩ : ∃ k, q = p + (k + 1) := ⟨q - p - 1, by omega⟩
        rw [show p + (k + 1) - (p + 1) = k by omega, show p + (k + 1) - p = k + 1 by omega, List.getD_cons_succ]
      · rw [if_neg (by omega), if_neg hq, if_neg h1]

/-- Byte `i` of the block is the byte at address `i`. -/
theorem block_get (m : Memory) (i : Nat) (h : i < 64) : m.block[i] = m.read i := by
  simp [Memory.block]

end Sys2Proof.Laws
end

