-- ==== Sys2Proof/Laws/PerInstr.lean ====
section
/-! SUPPORT. One lemma per instruction: its encoded word lies in its row of the opcode table (R64, R68). -/

namespace Sys2Proof.Laws.TableRow

/-- The encoded word of a well-formed instruction, masked as the table's row says, is the row's match value. -/
def Statement (i : Instr) : Prop :=
  i.wf = true →
  match encode i with
  | .command c => c &&& BitVec.ofNat 32 (tableRow i).1 = BitVec.ofNat 32 (tableRow i).2
  | .microOp u => u &&& BitVec.ofNat 9 (tableRow i).1 = BitVec.ofNat 9 (tableRow i).2

theorem nop : Statement .nop := by simp only [Statement, encode]; decide

theorem init : Statement .init := by simp only [Statement, encode]; decide

theorem final : Statement .final := by simp only [Statement, encode]; decide

theorem push1 (b0 : Byte) : Statement (.push1 b0) := by
  intro _
  have hm : BitVec.ofNat 32 0xFF00FFFF = (0xFF#8 ++ 0x00#8 ++ 0xFFFF#16) := by decide
  have ht : BitVec.ofNat 32 0x11000000 = (0x11#8 ++ 0x00#8 ++ 0x0000#16) := by decide
  have h : (0x11#8 ++ b0 ++ 0#16) &&& (0xFF#8 ++ 0x00#8 ++ 0xFFFF#16) = (0x11#8 ++ 0x00#8 ++ 0x0000#16) := by
    simp only [BitVec.and_append, BitVec.and_zero]
    simp
  show (0x11#8 ++ b0 ++ 0#16 : BitVec 32) &&& BitVec.ofNat 32 0xFF00FFFF = BitVec.ofNat 32 0x11000000
  rw [hm, ht]
  exact h

theorem push2 (b0 b1 : Byte) : Statement (.push2 b0 b1) := by
  intro _
  have hm : BitVec.ofNat 32 0xFF0000FF = (0xFF#8 ++ 0x00#8 ++ 0x00#8 ++ 0xFF#8) := by decide
  have ht : BitVec.ofNat 32 0x12000000 = (0x12#8 ++ 0x00#8 ++ 0x00#8 ++ 0x00#8) := by decide
  have h : (0x12#8 ++ b0 ++ b1 ++ 0#8) &&& (0xFF#8 ++ 0x00#8 ++ 0x00#8 ++ 0xFF#8) = (0x12#8 ++ 0x00#8 ++ 0x00#8 ++ 0x00#8) := by
    simp only [BitVec.and_append, BitVec.and_zero]
    simp
  show (0x12#8 ++ b0 ++ b1 ++ 0#8 : BitVec 32) &&& BitVec.ofNat 32 0xFF0000FF = BitVec.ofNat 32 0x12000000
  rw [hm, ht]
  exact h

theorem push3 (b0 b1 b2 : Byte) : Statement (.push3 b0 b1 b2) := by
  intro _
  have hm : BitVec.ofNat 32 0xFF000000 = (0xFF#8 ++ 0x00#8 ++ 0x00#8 ++ 0x00#8) := by decide
  have ht : BitVec.ofNat 32 0x13000000 = (0x13#8 ++ 0x00#8 ++ 0x00#8 ++ 0x00#8) := by decide
  have h : (0x13#8 ++ b0 ++ b1 ++ b2) &&& (0xFF#8 ++ 0x00#8 ++ 0x00#8 ++ 0x00#8) = (0x13#8 ++ 0x00#8 ++ 0x00#8 ++ 0x00#8) := by
    simp only [BitVec.and_append, BitVec.and_zero]
    simp
  show (0x13#8 ++ b0 ++ b1 ++ b2 : BitVec 32) &&& BitVec.ofNat 32 0xFF000000 = BitVec.ofNat 32 0x13000000
  rw [hm, ht]
  exact h

theorem rdst : Statement .rdst := by simp only [Statement, encode]; decide

theorem rdlen (idx : BitVec 4) : Statement (.rdlen idx) := by
  revert idx; simp only [Statement, encode]; decide

theorem rdh (idx : BitVec 4) : Statement (.rdh idx) := by
  revert idx; simp only [Statement, encode]; decide

theorem rdx (idx : BitVec 4) : Statement (.rdx idx) := by
  revert idx; simp only [Statement, encode]; decide

theorem loadw : Statement .loadw := by simp only [Statement, encode]; decide

theorem expand (t : BitVec 6) : Statement (.expand t) := by
  revert t; simp only [Statement, encode]; decide

theorem seed : Statement .seed := by simp only [Statement, encode]; decide

theorem round (t : BitVec 6) : Statement (.round t) := by
  revert t; simp only [Statement, encode]; decide

theorem fold : Statement .fold := by simp only [Statement, encode]; decide

end Sys2Proof.Laws.TableRow
end

