-- ==== Sys2Proof/Laws/State.lean ====
section
/-! SUPPORT. One lemma per field per update of the state, so that no later proof unfolds a record update. -/

namespace Sys2Proof.Laws

open Sys2Proof.Machine

/-! ### `setW` -/

@[simp] theorem setW_H (s : State) (t : BitVec 6) (x : Word) : (s.setW t x).H = s.H := rfl
@[simp] theorem setW_vars (s : State) (t : BitVec 6) (x : Word) : (s.setW t x).vars = s.vars := rfl
@[simp] theorem setW_W (s : State) (t : BitVec 6) (x : Word) : (s.setW t x).W = s.W.set t.toNat x t.isLt := rfl
@[simp] theorem setW_BLK (s : State) (t : BitVec 6) (x : Word) : (s.setW t x).BLK = s.BLK := rfl
@[simp] theorem setW_LEN (s : State) (t : BitVec 6) (x : Word) : (s.setW t x).LEN = s.LEN := rfl
@[simp] theorem setW_MODE (s : State) (t : BitVec 6) (x : Word) : (s.setW t x).MODE = s.MODE := rfl
@[simp] theorem setW_ERRCODE (s : State) (t : BitVec 6) (x : Word) : (s.setW t x).ERRCODE = s.ERRCODE := rfl
@[simp] theorem setW_UPC (s : State) (t : BitVec 6) (x : Word) : (s.setW t x).UPC = s.UPC := rfl
@[simp] theorem setW_compressing (s : State) (t : BitVec 6) (x : Word) : (s.setW t x).compressing = s.compressing := rfl
@[simp] theorem setW_cfg (s : State) (t : BitVec 6) (x : Word) : (s.setW t x).cfg = s.cfg := rfl
@[simp] theorem setW_port (s : State) (t : BitVec 6) (x : Word) : (s.setW t x).port = s.port := rfl
@[simp] theorem setW_out (s : State) (t : BitVec 6) (x : Word) : (s.setW t x).out = s.out := rfl
@[simp] theorem setW_resets (s : State) (t : BitVec 6) (x : Word) : (s.setW t x).resets = s.resets := rfl

/-! ### `setBlk` -/

@[simp] theorem setBlk_H (s : State) (p : Nat) (b : Byte) : (s.setBlk p b).H = s.H := rfl
@[simp] theorem setBlk_vars (s : State) (p : Nat) (b : Byte) : (s.setBlk p b).vars = s.vars := rfl
@[simp] theorem setBlk_W (s : State) (p : Nat) (b : Byte) : (s.setBlk p b).W = s.W := rfl
@[simp] theorem setBlk_BLK (s : State) (p : Nat) (b : Byte) : (s.setBlk p b).BLK = s.BLK.write p b := rfl
@[simp] theorem setBlk_LEN (s : State) (p : Nat) (b : Byte) : (s.setBlk p b).LEN = s.LEN := rfl
@[simp] theorem setBlk_MODE (s : State) (p : Nat) (b : Byte) : (s.setBlk p b).MODE = s.MODE := rfl
@[simp] theorem setBlk_ERRCODE (s : State) (p : Nat) (b : Byte) : (s.setBlk p b).ERRCODE = s.ERRCODE := rfl
@[simp] theorem setBlk_UPC (s : State) (p : Nat) (b : Byte) : (s.setBlk p b).UPC = s.UPC := rfl
@[simp] theorem setBlk_compressing (s : State) (p : Nat) (b : Byte) : (s.setBlk p b).compressing = s.compressing := rfl
@[simp] theorem setBlk_cfg (s : State) (p : Nat) (b : Byte) : (s.setBlk p b).cfg = s.cfg := rfl
@[simp] theorem setBlk_port (s : State) (p : Nat) (b : Byte) : (s.setBlk p b).port = s.port := rfl
@[simp] theorem setBlk_out (s : State) (p : Nat) (b : Byte) : (s.setBlk p b).out = s.out := rfl
@[simp] theorem setBlk_resets (s : State) (p : Nat) (b : Byte) : (s.setBlk p b).resets = s.resets := rfl

/-! ### `setBlkBytes` -/

@[simp] theorem setBlkBytes_H (s : State) (p : Nat) (bs : List Byte) : (s.setBlkBytes p bs).H = s.H := rfl
@[simp] theorem setBlkBytes_vars (s : State) (p : Nat) (bs : List Byte) : (s.setBlkBytes p bs).vars = s.vars := rfl
@[simp] theorem setBlkBytes_W (s : State) (p : Nat) (bs : List Byte) : (s.setBlkBytes p bs).W = s.W := rfl
@[simp] theorem setBlkBytes_BLK (s : State) (p : Nat) (bs : List Byte) : (s.setBlkBytes p bs).BLK = s.BLK.writeBytes p bs := rfl
@[simp] theorem setBlkBytes_LEN (s : State) (p : Nat) (bs : List Byte) : (s.setBlkBytes p bs).LEN = s.LEN := rfl
@[simp] theorem setBlkBytes_MODE (s : State) (p : Nat) (bs : List Byte) : (s.setBlkBytes p bs).MODE = s.MODE := rfl
@[simp] theorem setBlkBytes_ERRCODE (s : State) (p : Nat) (bs : List Byte) : (s.setBlkBytes p bs).ERRCODE = s.ERRCODE := rfl
@[simp] theorem setBlkBytes_UPC (s : State) (p : Nat) (bs : List Byte) : (s.setBlkBytes p bs).UPC = s.UPC := rfl
@[simp] theorem setBlkBytes_compressing (s : State) (p : Nat) (bs : List Byte) : (s.setBlkBytes p bs).compressing = s.compressing := rfl
@[simp] theorem setBlkBytes_cfg (s : State) (p : Nat) (bs : List Byte) : (s.setBlkBytes p bs).cfg = s.cfg := rfl
@[simp] theorem setBlkBytes_port (s : State) (p : Nat) (bs : List Byte) : (s.setBlkBytes p bs).port = s.port := rfl
@[simp] theorem setBlkBytes_out (s : State) (p : Nat) (bs : List Byte) : (s.setBlkBytes p bs).out = s.out := rfl
@[simp] theorem setBlkBytes_resets (s : State) (p : Nat) (bs : List Byte) : (s.setBlkBytes p bs).resets = s.resets := rfl

/-! ### `nextUpc` -/

@[simp] theorem nextUpc_H (s : State) : (s.nextUpc).H = s.H := rfl
@[simp] theorem nextUpc_vars (s : State) : (s.nextUpc).vars = s.vars := rfl
@[simp] theorem nextUpc_W (s : State) : (s.nextUpc).W = s.W := rfl
@[simp] theorem nextUpc_BLK (s : State) : (s.nextUpc).BLK = s.BLK := rfl
@[simp] theorem nextUpc_LEN (s : State) : (s.nextUpc).LEN = s.LEN := rfl
@[simp] theorem nextUpc_MODE (s : State) : (s.nextUpc).MODE = s.MODE := rfl
@[simp] theorem nextUpc_ERRCODE (s : State) : (s.nextUpc).ERRCODE = s.ERRCODE := rfl
@[simp] theorem nextUpc_UPC (s : State) : (s.nextUpc).UPC = s.UPC + 1#7 := rfl
@[simp] theorem nextUpc_compressing (s : State) : (s.nextUpc).compressing = s.compressing := rfl
@[simp] theorem nextUpc_cfg (s : State) : (s.nextUpc).cfg = s.cfg := rfl
@[simp] theorem nextUpc_port (s : State) : (s.nextUpc).port = s.port := rfl
@[simp] theorem nextUpc_out (s : State) : (s.nextUpc).out = s.out := rfl
@[simp] theorem nextUpc_resets (s : State) : (s.nextUpc).resets = s.resets := rfl

/-! ### `respond` -/

@[simp] theorem respond_H (s : State) (f : Bool) (d : Word) : (s.respond f d).H = s.H := rfl
@[simp] theorem respond_vars (s : State) (f : Bool) (d : Word) : (s.respond f d).vars = s.vars := rfl
@[simp] theorem respond_W (s : State) (f : Bool) (d : Word) : (s.respond f d).W = s.W := rfl
@[simp] theorem respond_BLK (s : State) (f : Bool) (d : Word) : (s.respond f d).BLK = s.BLK := rfl
@[simp] theorem respond_LEN (s : State) (f : Bool) (d : Word) : (s.respond f d).LEN = s.LEN := rfl
@[simp] theorem respond_MODE (s : State) (f : Bool) (d : Word) : (s.respond f d).MODE = s.MODE := rfl
@[simp] theorem respond_ERRCODE (s : State) (f : Bool) (d : Word) : (s.respond f d).ERRCODE = s.ERRCODE := rfl
@[simp] theorem respond_UPC (s : State) (f : Bool) (d : Word) : (s.respond f d).UPC = s.UPC := rfl
@[simp] theorem respond_compressing (s : State) (f : Bool) (d : Word) : (s.respond f d).compressing = s.compressing := rfl
@[simp] theorem respond_cfg (s : State) (f : Bool) (d : Word) : (s.respond f d).cfg = s.cfg := rfl
@[simp] theorem respond_port (s : State) (f : Bool) (d : Word) : (s.respond f d).port = s.port := rfl
@[simp] theorem respond_out (s : State) (f : Bool) (d : Word) : (s.respond f d).out = s.out ++ [⟨f, d⟩] := rfl
@[simp] theorem respond_resets (s : State) (f : Bool) (d : Word) : (s.respond f d).resets = s.resets := rfl

/-! ### `respondStatus` -/

@[simp] theorem respondStatus_H (s : State) : (s.respondStatus).H = s.H := rfl
@[simp] theorem respondStatus_vars (s : State) : (s.respondStatus).vars = s.vars := rfl
@[simp] theorem respondStatus_W (s : State) : (s.respondStatus).W = s.W := rfl
@[simp] theorem respondStatus_BLK (s : State) : (s.respondStatus).BLK = s.BLK := rfl
@[simp] theorem respondStatus_LEN (s : State) : (s.respondStatus).LEN = s.LEN := rfl
@[simp] theorem respondStatus_MODE (s : State) : (s.respondStatus).MODE = s.MODE := rfl
@[simp] theorem respondStatus_ERRCODE (s : State) : (s.respondStatus).ERRCODE = s.ERRCODE := rfl
@[simp] theorem respondStatus_UPC (s : State) : (s.respondStatus).UPC = s.UPC := rfl
@[simp] theorem respondStatus_compressing (s : State) : (s.respondStatus).compressing = s.compressing := rfl
@[simp] theorem respondStatus_cfg (s : State) : (s.respondStatus).cfg = s.cfg := rfl
@[simp] theorem respondStatus_port (s : State) : (s.respondStatus).port = s.port := rfl
@[simp] theorem respondStatus_out (s : State) : (s.respondStatus).out = s.out ++ [⟨false, s.status⟩] := rfl
@[simp] theorem respondStatus_resets (s : State) : (s.respondStatus).resets = s.resets := rfl

/-! ### `openMessage` -/

@[simp] theorem openMessage_H (s : State) : (openMessage s).H = iv := rfl
@[simp] theorem openMessage_vars (s : State) : (openMessage s).vars = s.vars := rfl
@[simp] theorem openMessage_W (s : State) : (openMessage s).W = s.W := rfl
@[simp] theorem openMessage_BLK (s : State) : (openMessage s).BLK = s.BLK := rfl
@[simp] theorem openMessage_LEN (s : State) : (openMessage s).LEN = 0#64 := rfl
@[simp] theorem openMessage_MODE (s : State) : (openMessage s).MODE = .absorb := rfl
@[simp] theorem openMessage_ERRCODE (s : State) : (openMessage s).ERRCODE = 0#4 := rfl
@[simp] theorem openMessage_UPC (s : State) : (openMessage s).UPC = s.UPC := rfl
@[simp] theorem openMessage_compressing (s : State) : (openMessage s).compressing = s.compressing := rfl
@[simp] theorem openMessage_cfg (s : State) : (openMessage s).cfg = s.cfg := rfl
@[simp] theorem openMessage_port (s : State) : (openMessage s).port = s.port := rfl
@[simp] theorem openMessage_out (s : State) : (openMessage s).out = s.out := rfl
@[simp] theorem openMessage_resets (s : State) : (openMessage s).resets = s.resets := rfl

/-! ### `raise` (R165) -/

@[simp] theorem raise_H (s : State) (c : Cause) : (raise c s).H = s.H := by simp only [raise]; split <;> rfl
@[simp] theorem raise_vars (s : State) (c : Cause) : (raise c s).vars = s.vars := by simp only [raise]; split <;> rfl
@[simp] theorem raise_W (s : State) (c : Cause) : (raise c s).W = s.W := by simp only [raise]; split <;> rfl
@[simp] theorem raise_BLK (s : State) (c : Cause) : (raise c s).BLK = s.BLK := by simp only [raise]; split <;> rfl
@[simp] theorem raise_LEN (s : State) (c : Cause) : (raise c s).LEN = s.LEN := by simp only [raise]; split <;> rfl
@[simp] theorem raise_MODE (s : State) (c : Cause) : (raise c s).MODE = .error := rfl
@[simp] theorem raise_ERRCODE (s : State) (c : Cause) :
    (raise c s).ERRCODE = if s.MODE = .error then s.ERRCODE else c.code := by
  simp only [raise]; split <;> simp_all
@[simp] theorem raise_UPC (s : State) (c : Cause) : (raise c s).UPC = s.UPC := by simp only [raise]; split <;> rfl
@[simp] theorem raise_compressing (s : State) (c : Cause) : (raise c s).compressing = s.compressing := by simp only [raise]; split <;> rfl
@[simp] theorem raise_cfg (s : State) (c : Cause) : (raise c s).cfg = s.cfg := by simp only [raise]; split <;> rfl
@[simp] theorem raise_port (s : State) (c : Cause) : (raise c s).port = s.port := by simp only [raise]; split <;> rfl
@[simp] theorem raise_out (s : State) (c : Cause) :
    (raise c s).out = s.out ++ [⟨true, c.code.setWidth 32⟩] := by simp only [raise]; split <;> rfl
@[simp] theorem raise_resets (s : State) (c : Cause) : (raise c s).resets = s.resets := by simp only [raise]; split <;> rfl

/-! ### `resetEvent` (R190); nothing is said of the free datapath values -/

@[simp] theorem resetEvent_LEN (s : State) : (resetEvent s).LEN = 0#64 := rfl
@[simp] theorem resetEvent_MODE (s : State) : (resetEvent s).MODE = .idle := rfl
@[simp] theorem resetEvent_ERRCODE (s : State) : (resetEvent s).ERRCODE = 0#4 := rfl
@[simp] theorem resetEvent_UPC (s : State) : (resetEvent s).UPC = 0#7 := rfl
@[simp] theorem resetEvent_compressing (s : State) : (resetEvent s).compressing = false := rfl
@[simp] theorem resetEvent_cfg (s : State) : (resetEvent s).cfg = s.cfg := rfl
@[simp] theorem resetEvent_port (s : State) : (resetEvent s).port = s.port := rfl
@[simp] theorem resetEvent_out (s : State) : (resetEvent s).out = s.out := rfl
@[simp] theorem resetEvent_resets (s : State) : (resetEvent s).resets = s.resets + 1 := rfl

/-- The status word reads `LEN`, `ERRCODE` and `MODE` only (R24). -/
theorem status_congr (s t : State) (hl : s.LEN = t.LEN) (he : s.ERRCODE = t.ERRCODE) (hm : s.MODE = t.MODE) :
    s.status = t.status := by
  simp only [State.status, hl, he, hm]

@[simp] theorem respond_status (s : State) (f : Bool) (d : Word) : (s.respond f d).status = s.status := rfl
@[simp] theorem respondStatus_status (s : State) : s.respondStatus.status = s.status := rfl

/-- `POS` reads `LEN` only (R19). -/
theorem pos_congr (s t : State) (hl : s.LEN = t.LEN) : s.pos = t.pos := by simp only [State.pos, hl]

theorem pos_lt (s : State) : s.pos < 64 := Nat.mod_lt _ (by decide)

@[simp] theorem andThen_next (s : State) (k : State → Result) : andThen (.next s) k = k s := rfl
@[simp] theorem andThen_fault (f : Fault) (k : State → Result) : andThen (.fault f) k = .fault f := rfl
@[simp] theorem andThen_refused (q : Refusal) (k : State → Result) : andThen (.refused q) k = .refused q := rfl

/-- A sequence answers a next state exactly when both its parts do. -/
theorem andThen_eq_next (r : Result) (k : State → Result) (t : State) :
    andThen r k = .next t ↔ ∃ s, r = .next s ∧ k s = .next t := by
  cases r <;> simp [andThen]

/-- The mode check answers by the body or by the fault entry, and does nothing else (R162). -/
theorem requireMode_eq (m : Mode) (s : State) (body : State → Result) :
    (s.MODE = m ∧ requireMode m s body = body s) ∨
      (s.MODE ≠ m ∧ requireMode m s body = .next (raise .badState s)) := by
  by_cases h : s.MODE = m <;> simp [requireMode, h]

/-- The admission check finds no cause exactly when the bytes fit (R102). -/
theorem admit_eq_none (n : Nat) (s : State) :
    admission n s = none ↔
      (∀ cap, s.cfg.padcap = some cap → paddedLen (s.LEN.toNat + n) ≤ cap) ∧ s.LEN.toNat + n < 2 ^ 61 := by
  unfold admission exceedsCapacity
  cases h : s.cfg.padcap with
  | none => simp
  | some cap =>
    by_cases h1 : cap < paddedLen (s.LEN.toNat + n)
    · simp [h1]
    · by_cases h2 : 2 ^ 61 ≤ s.LEN.toNat + n
      · simp [h1]; intro; omega
      · simp [h1, Nat.not_lt.mp h1]

end Sys2Proof.Laws
end

