-- ==== Sys2Proof/Laws/Sequencer.lean ====
section
/-! SUPPORT. What one micro-operation, one `COMPRESS` and one absorbed byte can do. -/

namespace Sys2Proof.Laws

open Sys2Proof.Machine

/-! ### The micro-program (R69) -/

theorem microOpAt_zero : microOpAt 0#7 = some .loadw := by decide

theorem microOpAt_expand : ∀ u : BitVec 7, 1#7 ≤ u → u ≤ 48#7 → microOpAt u = some (.expand ((u + 15#7).setWidth 6)) := by
  decide

theorem microOpAt_seed : microOpAt 49#7 = some .seed := by decide

theorem microOpAt_round : ∀ u : BitVec 7, 50#7 ≤ u → u ≤ 113#7 → microOpAt u = some (.round ((u - 50#7).setWidth 6)) := by
  decide

theorem microOpAt_fold : microOpAt 114#7 = some .fold := by decide

theorem microOpAt_none : ∀ u : BitVec 7, 115#7 ≤ u → microOpAt u = none := by decide

/-- The operand of an `EXPAND` of the micro-program is in 16..63 (R68). -/
theorem expand_operand : ∀ u : BitVec 7, 1#7 ≤ u → u ≤ 48#7 → 16#6 ≤ (u + 15#7).setWidth 6 := by decide

/-- The five kinds of place in the micro-program. -/
theorem upc_cases : ∀ u : BitVec 7, u ≤ 114#7 →
    u = 0#7 ∨ (1#7 ≤ u ∧ u ≤ 48#7) ∨ u = 49#7 ∨ (50#7 ≤ u ∧ u ≤ 113#7) ∨ u = 114#7 := by decide

/-! ### One micro-operation -/

/-- A micro-operation writes `H`, `a..h`, `W`, `UPC` and the end of the compression, and nothing else. -/
theorem performMicroOp_frame (i : Instr) (s t : State) (h : performMicroOp i s = .next t) :
    t = { s with H := t.H, vars := t.vars, W := t.W, UPC := t.UPC, compressing := t.compressing } := by
  cases i <;> simp only [performMicroOp, reduceCtorEq] at h
  case loadw => simp only [execLoadw, Host.Outcome.next.injEq] at h; subst h; rfl
  case expand x =>
    simp only [execExpand] at h
    split at h
    · simp only [Host.Outcome.next.injEq] at h; subst h; rfl
    · simp at h
  case seed => simp only [execSeed, Host.Outcome.next.injEq] at h; subst h; rfl
  case round x => simp only [execRound, Host.Outcome.next.injEq] at h; subst h; rfl
  case fold => simp only [execFold, Host.Outcome.next.injEq] at h; subst h; rfl

theorem microStep_frame (s t : State) (h : microStep s = .next t) :
    t = { s with H := t.H, vars := t.vars, W := t.W, UPC := t.UPC, compressing := t.compressing } := by
  simp only [microStep] at h
  split at h
  · exact performMicroOp_frame _ s t h
  · simp at h

theorem microStep_of (s : State) (i : Instr) (h : microOpAt s.UPC = some i) : microStep s = performMicroOp i s := by
  simp only [microStep, h]

theorem execExpand_of (t : BitVec 6) (s : State) (h : 16#6 ≤ t) : ∃ w, execExpand t s = .next (s.setW t w).nextUpc :=
  ⟨_, if_pos h⟩

/-- Inside the micro-program a micro-operation always answers, and `UPC` goes on by one, or to 0 after `FOLD` (R127). -/
theorem microStep_next (s : State) (h : s.UPC ≤ 114#7) :
    ∃ t, microStep s = .next t ∧ t.UPC = (if s.UPC = 114#7 then 0#7 else s.UPC + 1#7) ∧
      t.compressing = (if s.UPC = 114#7 then false else s.compressing) := by
  obtain hu | ⟨h1, h2⟩ | hu | ⟨h1, h2⟩ | hu := upc_cases s.UPC h
  · refine ⟨_, microStep_of s .loadw (by rw [hu]; exact microOpAt_zero), ?_⟩
    simp [hu]
  · obtain ⟨w, hw⟩ := execExpand_of ((s.UPC + 15#7).setWidth 6) s (expand_operand s.UPC h1 h2)
    refine ⟨_, (microStep_of s _ (microOpAt_expand s.UPC h1 h2)).trans hw, ?_⟩
    have : s.UPC ≠ 114#7 := by intro hc; rw [hc] at h2; revert h2; decide
    simp [this]
  · refine ⟨_, microStep_of s .seed (by rw [hu]; exact microOpAt_seed), ?_⟩
    simp [hu]
  · refine ⟨_, microStep_of s _ (microOpAt_round s.UPC h1 h2), ?_⟩
    have : s.UPC ≠ 114#7 := by intro hc; rw [hc] at h2; revert h2; decide
    simp [this]
  · refine ⟨_, microStep_of s .fold (by rw [hu]; exact microOpAt_fold), ?_⟩
    simp [hu]

/-! ### `COMPRESS` -/

theorem microLoop_zero (s : State) : microLoop 0 s = .next s := rfl

theorem microLoop_succ (n : Nat) (s : State) :
    microLoop (n + 1) s = andThen (microStep s) (fun s' => if s.UPC = 114#7 then .next s' else microLoop n s') := rfl

/-- With passes enough for the rest of the micro-program the loop of R125 answers, with `UPC` = 0 and nothing written
but the datapath. -/
theorem microLoop_next (n : Nat) (s : State) (h : s.UPC ≤ 114#7) (hn : 115 ≤ s.UPC.toNat + n) :
    ∃ t, microLoop n s = .next t ∧ t.UPC = 0#7 ∧ t.compressing = false ∧
      t = { s with H := t.H, vars := t.vars, W := t.W, UPC := t.UPC, compressing := t.compressing } := by
  induction n generalizing s with
  | zero =>
    have : s.UPC.toNat ≤ 114 := h
    omega
  | succ n ih =>
    obtain ⟨t, ht, hupc, hc⟩ := microStep_next s h
    have hf := microStep_frame s t ht
    by_cases hu : s.UPC = 114#7
    · refine ⟨t, by rw [microLoop_succ, ht, andThen_next, if_pos hu], ?_, ?_, hf⟩
      · rw [hupc, if_pos hu]
      · rw [hc, if_pos hu]
    · rw [if_neg hu] at hupc
      have hle : s.UPC.toNat ≤ 114 := h
      have hne : s.UPC.toNat ≠ 114 := fun he => hu (BitVec.eq_of_toNat_eq he)
      have htn : t.UPC.toNat = s.UPC.toNat + 1 := by
        rw [hupc, BitVec.toNat_add]
        exact Nat.mod_eq_of_lt (by simp; omega)
      obtain ⟨r, hr, hr0, hrc, hrf⟩ := ih t (by rw [BitVec.le_def, htn]; simp; omega) (by omega)
      refine ⟨r, by rw [microLoop_succ, ht, andThen_next, if_neg hu, hr], hr0, hrc, ?_⟩
      rw [hrf, hf]

/-- `COMPRESS` from `UPC` = 0 always answers, ends with `UPC` = 0 and no compression in progress, and writes nothing but
`H`, `a..h`, `W` (R125). -/
theorem compress_next (s : State) (h : s.UPC = 0#7) :
    ∃ t, compress s = .next t ∧
      t = { s with H := t.H, vars := t.vars, W := t.W, UPC := 0#7, compressing := false } := by
  obtain ⟨t, ht, h0, hc, hf⟩ := microLoop_next 115 { s with compressing := true }
    (by rw [show ({ s with compressing := true } : State).UPC = s.UPC from rfl, h]; decide) (by simp)
  refine ⟨t, ht, ?_⟩
  rw [h0, hc] at hf
  exact hf

/-! ### One absorbed byte (R103) -/

/-- An absorbed byte is written at `POS` and counted; the datapath changes only when the byte completes the block. -/
theorem absorb_next (b : Byte) (s : State) (h : s.UPC = 0#7) (hc : s.compressing = false) :
    ∃ t, absorb b s = .next t ∧
      t = { s with H := t.H, vars := t.vars, W := t.W, BLK := s.BLK.write s.pos b, LEN := s.LEN + 1#64 } ∧
      ((s.LEN + 1#64).toNat % 64 ≠ 0 → t.H = s.H ∧ t.vars = s.vars ∧ t.W = s.W) := by
  by_cases hp : (s.LEN + 1#64).toNat % 64 = 0
  · obtain ⟨t, ht, hf⟩ := compress_next { s.setBlk s.pos b with LEN := (s.setBlk s.pos b).LEN + 1#64 } h
    refine ⟨t, ?_, ?_, fun hn => absurd hp hn⟩
    · simp only [absorb]
      rw [if_pos (by exact hp)]
      exact ht
    · rw [hf]
      simp [State.setBlk, h, hc]
  · refine ⟨{ s.setBlk s.pos b with LEN := (s.setBlk s.pos b).LEN + 1#64 }, ?_, ?_, fun _ => ⟨rfl, rfl, rfl⟩⟩
    · simp only [absorb]
      rw [if_neg (by exact hp)]
    · rfl

end Sys2Proof.Laws
end

