-- ==== Sys2Proof/Tests/Slice0.lean ====
section
/-! SUPPORT. The model's own tests. The expected results are the spec's: the examples of its rules and the vectors of
95_test_vectors.md; the section is named at each. Then the witnesses that the hypotheses of the statements can be met. -/

namespace Sys2Proof.Tests

open Sys2Proof.Machine

/-! ## Well-formedness: an ill-formed term for each check -/

theorem test_rdlen_index_two_is_ill_formed : (Instr.rdlen 2#4).wf = false := by decide
theorem test_rdh_index_eight_is_ill_formed : (Instr.rdh 8#4).wf = false := by decide
theorem test_expand_fifteen_is_ill_formed : (Instr.expand 15#6).wf = false := by decide
theorem test_bounds_are_well_formed :
    (Instr.rdlen 1#4).wf ∧ (Instr.rdh 7#4).wf ∧ (Instr.rdx 15#4).wf ∧ (Instr.expand 16#6).wf ∧ (Instr.round 0#6).wf := by
  decide

/-! ## Decoding: words written out from R64, R68 and section 5.1 -/

theorem test_decode_nop : decodeTableWord 32 0x00000000 = some .nop := by decide
theorem test_decode_init : decodeTableWord 32 0x01000000 = some .init := by decide
theorem test_decode_final : decodeTableWord 32 0x02000000 = some .final := by decide
theorem test_decode_push1 : decodeTableWord 32 0x11610000 = some (.push1 0x61#8) := by decide
theorem test_decode_push2 : decodeTableWord 32 0x1280ff00 = some (.push2 0x80#8 0xff#8) := by decide
theorem test_decode_push3 : decodeTableWord 32 0x13616263 = some (.push3 0x61#8 0x62#8 0x63#8) := by decide
theorem test_decode_rdst : decodeTableWord 32 0x20000000 = some .rdst := by decide
theorem test_decode_rdlen : decodeTableWord 32 0x21000001 = some (.rdlen 1#4) := by decide
theorem test_decode_rdh : decodeTableWord 32 0x22000007 = some (.rdh 7#4) := by decide
theorem test_decode_rdx : decodeTableWord 32 0x2300000f = some (.rdx 15#4) := by decide
theorem test_decode_loadw : decodeTableWord 16 0b000000000 = some .loadw := by decide
theorem test_decode_expand : decodeTableWord 16 0b001111111 = some (.expand 63#6) := by decide
theorem test_decode_seed : decodeTableWord 16 0b010000000 = some .seed := by decide
theorem test_decode_round : decodeTableWord 16 0b011000001 = some (.round 1#6) := by decide
theorem test_decode_fold : decodeTableWord 16 0b100000000 = some .fold := by decide

/-- The illegal words of section 5.1, each under one of the grounds of R65. -/
theorem test_illegal_words :
    [0x00000001#32, 0x00ffffff#32, 0x01000100#32, 0x02800000#32, 0x11610001#32, 0x11618000#32, 0x12616201#32,
      0x20000001#32, 0x22000100#32, 0x23000010#32, 0x23800000#32].all
        (fun c => decide (decodeCommand c = .error .reservedBits)) ∧
    [0x03000000#32, 0x10000000#32, 0x10610000#32, 0x14000000#32, 0x1f000000#32, 0x24000000#32, 0x80000000#32,
      0xffffffff#32].all (fun c => decide (decodeCommand c = .error .unassignedOpcode)) ∧
    [0x21000002#32, 0x21000003#32, 0x22000008#32, 0x2200000f#32].all
      (fun c => decide (decodeCommand c = .error .indexAboveBound)) := by decide

/-- The micro-operation words that never occur, section 6. -/
theorem test_refused_micro_operation_words :
    [0x001#9, 0x03f#9, 0x040#9, 0x04f#9, 0x081#9, 0x0bf#9, 0x101#9, 0x13f#9, 0x140#9, 0x1ff#9].all
      (fun u => decide ((decodeMicroOp u).toOption = none)) := by decide

/-- Spot checks of `UROM`, section 6. -/
theorem test_urom_spots :
    uromAt 0#7 = some 0x000#9 ∧ uromAt 1#7 = some 0x050#9 ∧ uromAt 11#7 = some 0x05a#9 ∧ uromAt 48#7 = some 0x07f#9 ∧
    uromAt 49#7 = some 0x080#9 ∧ uromAt 50#7 = some 0x0c0#9 ∧ uromAt 72#7 = some 0x0d6#9 ∧
    uromAt 113#7 = some 0x0ff#9 ∧ uromAt 114#7 = some 0x100#9 ∧ uromAt 115#7 = none := by decide

/-- `PUSHS "abcde"`, the example of R71. -/
theorem test_assemble_pushs :
    assembleLine ['P', 'U', 'S', 'H', 'S', ' ', '"', 'a', 'b', 'c', 'd', 'e', '"'] =
      some [0x13616263#32, 0x12646500#32] := by decide +kernel

/-- A comment runs to the end of its line, an unpaired quote in it too; the next line is a command of its own (R70). -/
theorem test_assemble_quote_in_a_comment :
    assemble ['N', 'O', 'P', ' ', ';', ' ', '"', '\n', 'I', 'N', 'I', 'T'] = some [0x00000000#32, 0x01000000#32] := by
  decide +kernel

/-- An operand outside its range is an assembly error (R70). -/
theorem test_assemble_rdh_eight_is_an_error : assembleLine ['R', 'D', 'H', ' ', '8'] = none := by decide +kernel

/-! ## Primitives: section 2 -/

theorem test_rotr : rotr 0x12345678#32 4 = 0x81234567#32 ∧ rotr 0x12345678#32 31 = 0x2468acf0#32 := by decide
theorem test_choose : choose 0x510e527f#32 0x9b05688c#32 0x1f83d9ab#32 = 0x1f85c98c#32 := by decide
theorem test_majority : majority 0xff00ff00#32 0x12345678#32 0x9abcdef0#32 = 0x9a34de70#32 := by decide
theorem test_sigma : sigma0 0x12345678#32 = 0x66146474#32 ∧ sigma1 0x12345678#32 = 0x3561abda#32 := by decide
theorem test_gamma : gamma0 0x12345678#32 = 0xe7fce6ee#32 ∧ gamma1 0x12345678#32 = 0xa1f78649#32 := by decide
theorem test_padded_len :
    [0, 55, 56, 119, 120, 4087].map paddedLen = [64, 64, 128, 128, 192, 4096] := by decide

/-! ## Micro-operations: the "abc" block, section 3 -/

/-- An engine in ABSORB after `n` bytes of message, with a given `H` and block. -/
def absorbing (n : Nat) (h : Vector Word 8) (blk : Memory) : State :=
  { State.reset with MODE := .absorb, LEN := BitVec.ofNat 64 n, H := h, BLK := blk }

/-- A compression in progress at a place of the micro-program. -/
def compressingAt (u : BitVec 7) (s : State) : State := { s with compressing := true, UPC := u }

/-- The block of "abc" after the padding of `FINAL`. -/
def abcBlock : Memory := [(0, 0x61#8), (1, 0x62#8), (2, 0x63#8), (3, 0x80#8), (63, 0x18#8)]

/-- What holds of the next state, false for a stop. -/
def nextHolds (r : Result) (p : State → Bool) : Bool :=
  match r with
  | .next t => p t
  | .fault _ => false
  | .refused _ => false

theorem test_loadw_abc :
    nextHolds (exec .loadw (absorbing 3 iv abcBlock))
      (fun t => t.W[0] == 0x61626380#32 && t.W[1] == 0#32 && t.W[15] == 0x18#32 && t.UPC == 1#7) = true := by decide +kernel

theorem test_expand_17_abc :
    nextHolds (exec (.expand 17#6) { absorbing 3 iv [] with W := (Vector.replicate 64 0#32).set 15 0x18#32 })
      (fun t => t.W[17] == 0x000f0000#32 && t.W[16] == 0#32) = true := by decide +kernel

theorem test_seed_iv :
    nextHolds (exec .seed (absorbing 3 iv [])) (fun t => t.vars.a == 0x6a09e667#32 && t.vars.h == 0x5be0cd19#32) = true := by
  decide +kernel

theorem test_round_0_abc :
    nextHolds (exec (.round 0#6)
        { absorbing 3 iv [] with vars := seedVars iv, W := (Vector.replicate 64 0#32).set 0 0x61626380#32 })
      (fun t => decide (t.vars = ⟨0x5d6aebcd#32, 0x6a09e667#32, 0xbb67ae85#32, 0x3c6ef372#32, 0xfa2a4622#32, 0x510e527f#32,
        0x9b05688c#32, 0x1f83d9ab#32⟩)) = true := by decide +kernel

theorem test_fold_abc :
    nextHolds (exec .fold { absorbing 3 iv [] with vars := ⟨0x506e3058#32, 0xd39a2165#32, 0x04d24d6c#32, 0xb85e2ce9#32,
        0x5ef50f24#32, 0xfb121210#32, 0x948d25b6#32, 0x961f4894#32⟩, UPC := 114#7 })
      (fun t => t.H[0] == 0xba7816bf#32 && t.H[7] == 0xf20015ad#32 && t.UPC == 0#7) = true := by decide +kernel

theorem test_expand_below_sixteen_is_refused :
    nextHolds (exec (.expand 15#6) State.reset) (fun _ => true) = false := by decide

/-! ## Commands -/

/-- R100: the response to `INIT` is (0, 1). -/
theorem test_init : nextHolds (exec .init State.reset) (fun t => t.out == [⟨false, 1#32⟩] && t.H[7] == 0x5be0cd19#32) = true := by
  decide +kernel

/-- R106: after `INIT`, `PUSH3 0x61, 0x62, 0x63` answers (0, 0x301). -/
theorem test_push3_abc :
    nextHolds (exec (.push3 0x61#8 0x62#8 0x63#8) (absorbing 0 iv []))
      (fun t => t.out == [⟨false, 0x301#32⟩] && t.BLK == [(0, 0x61#8), (1, 0x62#8), (2, 0x63#8)]) = true := by decide +kernel

/-- Section 7, P6: the `PUSH3` that starts at `POS` = 63 compresses after its first byte. -/
theorem test_push3_across_block :
    nextHolds (exec (.push3 0x61#8 0x61#8 0x61#8) (absorbing 63 iv ((List.range 63).map (fun a => (a, 0x61#8)))))
      (fun t => t.out == [⟨false, 0x201#32⟩] && t.H[0] == 0xdf5bb81c#32 && t.H[7] == 0x00635e66#32 && t.LEN == 66#64) =
        true := by decide +kernel

/-- Section 5.2: `PUSH2` from `LEN` = 62 completes the block; `PUSH1` from 127 too. -/
theorem test_push2_completes_block :
    nextHolds (exec (.push2 0x61#8 0x61#8) (absorbing 62 iv [])) (fun t => t.out == [⟨false, 0x1#32⟩]) = true := by
  decide +kernel

theorem test_push1_completes_block :
    nextHolds (exec (.push1 0x61#8) (absorbing 127 iv [])) (fun t => t.out == [⟨false, 0x1#32⟩] && t.UPC == 0#7) = true := by
  decide +kernel

/-- Section 3: `FINAL` of "abc". -/
theorem test_final_abc :
    nextHolds (exec .final (absorbing 3 iv [(0, 0x61#8), (1, 0x62#8), (2, 0x63#8)]))
      (fun t => decide (t.H = #v[0xba7816bf#32, 0x8f01cfea#32, 0x414140de#32, 0x5dae2223#32, 0xb00361a3#32, 0x96177a9c#32,
        0xb410ff61#32, 0xf20015ad#32]) && t.BLK == abcBlock && t.out == [⟨false, 0x302#32⟩]) = true := by decide +kernel

/-- Section 4.1, L = 56: the padding spills into a second block. -/
theorem test_final_spills :
    nextHolds (exec .final (absorbing 56 iv ((List.range 56).map (fun a => (a, 0x61#8)))))
      (fun t => t.H[0] == 0xb35439a4#32 && t.H[7] == 0x6ec6738a#32 && t.BLK == [(62, 0x01#8), (63, 0xc0#8)]) = true := by
  decide +kernel

/-- The digest of "abc" in DONE mode. -/
def abcDone : State :=
  { absorbing 3 #v[0xba7816bf#32, 0x8f01cfea#32, 0x414140de#32, 0x5dae2223#32, 0xb00361a3#32, 0x96177a9c#32,
      0xb410ff61#32, 0xf20015ad#32] abcBlock with MODE := .done }

/-- R140: `NOP` in DONE mode after "abc". -/
theorem test_nop_in_done : nextHolds (exec .nop abcDone) (fun t => t.out == [⟨false, 0x302#32⟩]) = true := by decide +kernel

/-- R141: the status of a TOO_LARGE fault taken with `LEN` = 4087. -/
theorem test_rdst_after_too_large :
    nextHolds (exec .rdst { absorbing 4087 iv [] with MODE := .error, ERRCODE := 3#4 })
      (fun t => t.out == [⟨false, 0x3733#32⟩]) = true := by decide +kernel

/-- R142: the two halves of `LEN`. -/
theorem test_rdlen_halves :
    nextHolds (exec (.rdlen 1#4) { State.reset with LEN := 0x0000000500000003#64 }) (fun t => t.out == [⟨false, 5#32⟩]) = true ∧
    nextHolds (exec (.rdlen 0#4) { State.reset with LEN := 0x0000000500000003#64 }) (fun t => t.out == [⟨false, 3#32⟩]) = true :=
  by decide +kernel

theorem test_rdh_7 : nextHolds (exec (.rdh 7#4) abcDone) (fun t => t.out == [⟨false, 0xf20015ad#32⟩]) = true := by decide +kernel

/-- R144: "16bf" and "15ad". -/
theorem test_rdx_1_and_15 :
    nextHolds (exec (.rdx 1#4) abcDone) (fun t => t.out == [⟨false, 0x31366266#32⟩]) = true ∧
    nextHolds (exec (.rdx 15#4) abcDone) (fun t => t.out == [⟨false, 0x31356164#32⟩]) = true := by decide +kernel

/-! ## Faults: section 5.3 -/

theorem test_push_in_idle_is_bad_state :
    nextHolds (exec (.push1 0x61#8) State.reset)
      (fun t => t.out == [⟨true, 2#32⟩] && t.MODE == .error && t.status == 0x23#32) = true := by decide +kernel

theorem test_first_cause_is_kept :
    nextHolds (step { State.reset with MODE := .error, ERRCODE := 2#4, port := [.word 0xffffffff#32] })
      (fun t => t.out == [⟨true, 1#32⟩] && t.ERRCODE == 2#4 && t.port == []) = true := by decide +kernel

theorem test_illegal_before_bad_state :
    nextHolds (step { State.reset with port := [.word 0x11610001#32] })
      (fun t => t.out == [⟨true, 1#32⟩] && t.ERRCODE == 1#4) = true := by decide +kernel

theorem test_capacity_4086 :
    nextHolds (exec (.push2 0x61#8 0x61#8) (absorbing 4086 iv [])) (fun t => t.out == [⟨true, 3#32⟩] && t.LEN == 4086#64) = true ∧
    nextHolds (exec (.push1 0x61#8) (absorbing 4086 iv [])) (fun t => t.out == [⟨false, 0x3701#32⟩]) = true := by decide +kernel

theorem test_len_overflow :
    nextHolds (exec (.push2 0x61#8 0x61#8) { absorbing (2 ^ 61 - 2) iv [] with cfg := ⟨none⟩ })
      (fun t => t.out == [⟨true, 4#32⟩] && t.BLK == []) = true ∧
    nextHolds (exec (.push1 0x61#8) { absorbing (2 ^ 61 - 2) iv [] with cfg := ⟨none⟩ })
      (fun t => t.out == [⟨false, 0x3f01#32⟩]) = true := by decide +kernel

/-- R190: reset in the middle of a compression. -/
theorem test_reset_input_in_a_compression :
    nextHolds (step { compressingAt 60#7 (absorbing 70 iv []) with port := [.reset, .word 0x20000000#32] })
      (fun t => t.MODE == .idle && t.LEN == 0#64 && t.UPC == 0#7 && !t.compressing && t.port == [.word 0x20000000#32]) = true := by
  decide +kernel

/-- The first step after reset runs the word that `withFetchWord` places: a command, and a micro-operation. -/
theorem test_fetch_word_runs_first :
    nextHolds (step (State.reset.withFetchWord 32 0x01000000)) (fun t => t.MODE == .absorb && t.port == []) = true ∧
    nextHolds (step (State.reset.withFetchWord 16 0x100)) (fun t => t.UPC == 0#7 && !t.compressing) = true ∧
    nextHolds (step (State.reset.withFetchWord 16 0x0ff)) (fun t => t.UPC == 114#7 && t.compressing) = true := by decide +kernel

/-! ## Witnesses: states and operands that meet the hypotheses of the statements -/

theorem absorbing_between (n : Nat) (h : Vector Word 8) (blk : Memory) : (absorbing n h blk).Between := ⟨rfl, rfl⟩

/-- `StepKeepsInvariant`, `StepKeepsMessageInvariant`: a state that meets the invariant and takes a step. -/
theorem absorbing_inv : (absorbing 0 iv []).Inv where
  between := absorbing_between 0 iv []
  errIff := by decide
  errBound := by decide
  lenBound := by decide
  lenFits := by
    intro _ cap h
    have : cap = 4096 := by simpa [absorbing, State.reset, Config.reference] using h.symm
    subst this; decide
  idleLen := by decide
  blkForm := by decide
  cfgDomain := by decide

theorem absorbing_messageInv : (absorbing 0 iv []).MessageInv where
  absorbing := fun _ => ⟨[], ⟨by decide, fun p hp => absurd hp (by simp [absorbing, State.pos]), rfl⟩⟩
  finished := fun h => absurd h (by decide)

theorem absorbing_admits (n k : Nat) (hn : n < 4000) (hk : k ≤ 3) : (absorbing n iv []).Admits k where
  fits := by
    intro cap h
    have : cap = 4096 := by simpa [absorbing, State.reset, Config.reference] using h.symm
    subst this
    simp [absorbing, paddedLen]; omega
  below := by simp [absorbing]; omega

theorem witness_EncodeOfDecodeIsIdentity : decode (.command 0x22000007#32) = .ok (.rdh 7#4) := by decide

theorem witness_DecodeOfEncodeIsIdentity : (Instr.expand 16#6).wf = true ∧ (Instr.rdlen 1#4).wf = true := by decide

theorem witness_ResetInputEntersIdle :
    ({ State.reset with port := [.reset] } : State).port = .reset :: [] := rfl

theorem witness_ExpandComputesOneWord : 16 ≤ 16 ∧ 16 < 64 ∧ 16 ≤ 63 ∧ 63 < 64 := by decide

theorem witness_ExpandBelowSixteenIsRefused : 15#6 < 16#6 := by decide

theorem witness_CompressIsItsClosedForm : (absorbing 3 iv abcBlock).UPC = 0#7 := rfl

theorem witness_StepsWalkTheMicroProgram :
    (compressingAt 0#7 (absorbing 3 iv abcBlock)).compressing = true ∧
    (compressingAt 0#7 (absorbing 3 iv abcBlock)).UPC = 0#7 ∧
    ∀ rest, (compressingAt 0#7 (absorbing 3 iv abcBlock)).port ≠ .reset :: rest :=
  ⟨rfl, rfl, fun _ => by simp [compressingAt, absorbing, State.reset]⟩

theorem witness_UpcOutsideUromIsRefused :
    (compressingAt 115#7 State.reset).compressing = true ∧ 115#7 ≤ (compressingAt 115#7 State.reset).UPC ∧
    ∀ rest, (compressingAt 115#7 State.reset).port ≠ .reset :: rest :=
  ⟨rfl, by decide, fun _ => by simp [compressingAt, State.reset]⟩

/-- Inside the block, and across its end: `POS` 61 with two bytes, `POS` 63 with three. -/
theorem witness_PushAbsorbsItsBytes :
    (∀ n, n = 61 ∨ n = 63 → (absorbing n iv []).Between ∧ (absorbing n iv []).BLK.wf = true ∧
      (absorbing n iv []).MODE = .absorb ∧ (absorbing n iv []).Admits 2 ∧ (absorbing n iv []).Admits 3) ∧
    messageBytes (.push2 0x61#8 0x62#8) ≠ [] ∧ (absorbing 61 iv []).pos + 2 < 64 ∧ 64 ≤ (absorbing 63 iv []).pos + 3 := by
  refine ⟨fun n hn => ?_, by decide, by decide, by decide⟩
  have hlt : n < 4000 := by omega
  exact ⟨absorbing_between n iv [], rfl, rfl, absorbing_admits n 2 hlt (by decide), absorbing_admits n 3 hlt (by decide)⟩

theorem witness_PushIsItsBytesOneByOne :
    (absorbing 63 iv []).Between ∧ (absorbing 63 iv []).MODE = .absorb ∧ (absorbing 63 iv []).Admits 2 ∧
    (absorbing 63 iv []).Admits 3 :=
  ⟨absorbing_between 63 iv [], rfl, absorbing_admits 63 2 (by decide) (by decide), absorbing_admits 63 3 (by decide) (by decide)⟩

/-- The length fits (`POS` = 55) and does not (`POS` = 56). -/
theorem witness_FinalPadsAndCompresses :
    ∀ n, n = 55 ∨ n = 56 → (absorbing n iv []).Between ∧ (absorbing n iv []).BLK.wf = true ∧
      (absorbing n iv []).MODE = .absorb ∧ (absorbing n iv []).LEN.toNat < 2 ^ 61 := by
  intro n hn
  refine ⟨absorbing_between n iv [], rfl, rfl, ?_⟩
  simp [absorbing]; omega

theorem witness_AdmissionCheckArithmetic :
    (∃ cap, (absorbing 4087 iv []).cfg.padcap = some cap ∧ cap < paddedLen ((absorbing 4087 iv []).LEN.toNat + 1)) ∧
    (∀ cap, ({ absorbing (2 ^ 61 - 1) iv [] with cfg := ⟨none⟩ } : State).cfg.padcap = some cap → False) ∧
    2 ^ 61 ≤ ({ absorbing (2 ^ 61 - 1) iv [] with cfg := ⟨none⟩ } : State).LEN.toNat + 1 ∧
    (absorbing 4087 iv []).cfg.wf = true ∧ (absorbing 4087 iv []).cfg.padcap ≠ none ∧ 4096 % 64 = 0 ∧ 64 ≤ 4096 :=
  ⟨⟨4096, rfl, by decide⟩, fun _ h => by simp at h, by decide, by decide, by decide, by decide, by decide⟩

theorem witness_PushNotAdmittedFaults :
    admission 3 (absorbing 4085 iv []) = some .tooLarge ∧ (absorbing 4085 iv []).MODE = .absorb ∧
    admission 1 { absorbing (2 ^ 61 - 1) iv [] with cfg := ⟨none⟩ } = some .lenOverflow ∧
    messageBytes (.push3 0#8 0#8 0#8) ≠ [] ∧ messageBytes (.push1 0#8) ≠ [] := by decide

theorem witness_RdlenAnswersHalfOfLen : (absorbing 0 iv []).Inv ∧ 2#4 ≤ 2#4 := ⟨absorbing_inv, by decide⟩

/-- Both sides of every bound and mode of the two digest reads. -/
theorem witness_RdhAnswersDigestWord :
    abcDone.MODE = .done ∧ State.reset.MODE ≠ .done ∧ 7 < 8 ∧ 7#4 < 8#4 ∧ 8#4 ≤ 8#4 := by decide

theorem witness_RdxAnswersFourCharacters : abcDone.MODE = .done ∧ (absorbing 0 iv []).MODE ≠ .done ∧ 15 < 16 := by decide

theorem witness_SixteenRdxSpellTheDigest : abcDone.MODE = .done := rfl

theorem witness_PermissionTable :
    isCommand .final = true ∧ Instr.final.wf = true ∧ permitted .final State.reset.MODE = false ∧
    permitted .final (absorbing 0 iv []).MODE = true := by decide

theorem witness_FaultEntry : State.reset.MODE ≠ .error ∧ ({ State.reset with MODE := .error } : State).MODE = .error := by
  decide

theorem witness_IllegalWordFaultsInEveryMode :
    ({ abcDone with port := [.word 0xffffffff#32] } : State).compressing = false ∧
    ({ abcDone with port := [.word 0xffffffff#32] } : State).port = .word 0xffffffff#32 :: [] ∧
    decodeCommand 0xffffffff#32 = .error .unassignedOpcode := ⟨rfl, rfl, by decide⟩

theorem witness_ErrorModeAnswersEverything :
    ({ State.reset with MODE := .error, ERRCODE := 2#4 } : State).MODE = .error ∧ isCommand .nop = true ∧
    Instr.nop.wf = true ∧ Instr.nop ≠ .init ∧ permitted .nop .error = true ∧ permitted .final .error = false ∧
    decodeCommand 0x00000001#32 = .error .reservedBits := by decide

theorem witness_ModeTable :
    exec .init State.reset = .next (openMessage State.reset).respondStatus ∧ isCommand .init = true ∧
    Instr.init.wf = true := ⟨rfl, rfl, rfl⟩

/-- A state that the reset input, and one that `FINAL`, is about to change. -/
theorem witness_IdleByResetAndDoneByFinalOnly :
    nextHolds (step { abcDone with port := [.reset] }) (fun t => t.MODE == .idle) = true ∧
    nextHolds (step { absorbing 0 iv [] with port := [.word 0x02000000#32] }) (fun t => t.MODE == .done) = true := by
  decide +kernel

theorem witness_ErrorLeftByInitOrResetOnly :
    nextHolds (step { State.reset with MODE := .error, ERRCODE := 2#4, port := [.word 0x01000000#32] })
      (fun t => t.MODE != .error) = true ∧
    nextHolds (step { State.reset with MODE := .error, ERRCODE := 2#4, port := [.reset] }) (fun t => t.MODE != .error) = true :=
  by decide +kernel

theorem witness_FaultsArePrecise :
    State.reset.Between ∧ isCommand .final = true ∧ exec .final State.reset = .next (raise .badState State.reset) ∧
    (raise .badState State.reset).out = State.reset.out ++ [⟨true, 2#32⟩] := ⟨⟨rfl, rfl⟩, rfl, rfl, rfl⟩

theorem witness_EveryWordGetsOneResponse :
    ({ abcDone with port := [.word 0x02000000#32] } : State).Between ∧
    ({ abcDone with port := [.word 0x02000000#32] } : State).port = .word 0x02000000#32 :: [] := ⟨⟨rfl, rfl⟩, rfl⟩

theorem witness_StepNeverStopsBetweenCommands : State.reset.Between := ⟨rfl, rfl⟩

theorem witness_StepRunsDecodedInstruction :
    decode (.command 0x02000000#32) = .ok .final ∧
    ({ abcDone with port := [.word 0x02000000#32] } : State).compressing = false ∧
    uromAt (compressingAt 50#7 State.reset).UPC = some 0x0c0#9 ∧ decode (.microOp 0x0c0#9) = .ok (.round 0#6) ∧
    (∀ rest, (compressingAt 50#7 State.reset).port ≠ .reset :: rest) ∧ State.reset.port = [] :=
  ⟨by decide, rfl, by decide, by decide, fun _ => by simp [compressingAt, State.reset], rfl⟩

theorem witness_FetchWordIsRunNext :
    decodeTableWord 32 0x23000000 = some (.rdx 0#4) ∧ isCommand (.rdx 0#4) = true ∧
    decodeTableWord 16 0x050 = some (.expand 16#6) ∧ isCommand (.expand 16#6) = false := by decide

theorem witness_StepKeepsInvariant :
    State.Inv (absorbing 0 iv []) ∧ State.MessageInv (absorbing 0 iv []) ∧
    step (absorbing 0 iv []) = .next (absorbing 0 iv []) := ⟨absorbing_inv, absorbing_messageInv, rfl⟩

/-- Two engines with the same observations and different hidden contents. -/
theorem witness_HiddenStateIsNeverObserved :
    SameObservable (absorbing 1 iv [(0, 0x61#8), (5, 0x01#8)])
      { absorbing 1 iv [(0, 0x61#8)] with W := Vector.replicate 64 7#32 } ∧
    ∃ s', step (absorbing 1 iv [(0, 0x61#8), (5, 0x01#8)]) = .next s' := by
  refine ⟨⟨⟨rfl, rfl⟩, ⟨rfl, rfl⟩, rfl, rfl, rfl, rfl, rfl, rfl, rfl, rfl, fun _ => rfl, fun _ p hp => ?_⟩, ⟨_, rfl⟩⟩
  have hp0 : p = 0 := by
    have h1 : p < 1 := hp
    omega
  subst hp0; rfl

theorem witness_DigestOfThePushedMessage :
    abcDone.Between ∧ abcDone.BLK.wf = true ∧
    (∀ i ∈ [Instr.push1 0x61#8, .nop, .push2 0x62#8 0x63#8], insideMessage i = true) ∧
    (∀ cap, abcDone.cfg.padcap = some cap →
      paddedLen ([Instr.push1 0x61#8, .nop, .push2 0x62#8 0x63#8].flatMap messageBytes).length ≤ cap) ∧
    ([Instr.push1 0x61#8, .nop, .push2 0x62#8 0x63#8].flatMap messageBytes).length < 2 ^ 61 := by
  refine ⟨⟨rfl, rfl⟩, by decide, by decide, fun cap h => ?_, by decide⟩
  have : cap = 4096 := by simpa [abcDone, absorbing, State.reset, Config.reference] using h.symm
  subst this; decide

theorem witness_HashProgramSpellsTheDigest :
    abcDone.Between ∧ abcDone.BLK.wf = true ∧
    (∀ cap, abcDone.cfg.padcap = some cap → paddedLen [0x61#8, 0x62#8, 0x63#8].length ≤ cap) ∧
    [0x61#8, 0x62#8, 0x63#8].length < 2 ^ 61 := by
  refine ⟨⟨rfl, rfl⟩, by decide, fun cap h => ?_, by decide⟩
  have : cap = 4096 := by simpa [abcDone, absorbing, State.reset, Config.reference] using h.symm
  subst this; decide

theorem witness_ParameterIsConstantAndResponsesStay : step State.reset = .next State.reset := rfl

theorem witness_EqualBlocksAreEqualData : abcBlock.wf = true ∧ Memory.wf (abcBlock.write 3 0x80#8) = true := by decide

theorem witness_RotationMovesBits : 0 < 31 ∧ 31 < 32 ∧ 0 < 1 ∧ 1 < 32 := by decide

theorem witness_MicroProgramContents : 1#7 ≤ 48#7 ∧ 50#7 ≤ 113#7 ∧ 115#7 ≤ 127#7 ∧ 16#6 ≤ 63#6 := by decide

end Sys2Proof.Tests
end

section
/-! PROOFS, family 00_scope. First the rules of one step: an equation for each thing that can be next, and the inversion
`step_transition` that says once what a step can do. Then what the operations leave of the host's side of the engine
(parameter, port, responses). From these the two obligations O48 and O56. -/

namespace Sys2Proof.Proofs

open Sys2Proof.Machine Sys2Proof.Laws

/-! ### What is next, and what the step does with it (R7, R125, R177, R190) -/

/-- The next thing the host did is not to assert reset. -/
def NoResetNext (s : State) : Prop := ∀ rest, s.port ≠ .reset :: rest

theorem step_reset (s : State) (rest : List HostInput) (hp : s.port = .reset :: rest) :
    step s = .next (resetEvent { s with port := rest }) := by
  simp only [step, fetch, hp]

theorem step_wait (s : State) (hc : s.compressing = false) (hp : s.port = []) : step s = .next s := by
  simp [step, fetch, hp, hc]

theorem step_command (s : State) (c : BitVec 32) (i : Instr) (rest : List HostInput) (hc : s.compressing = false)
    (hp : s.port = .word c :: rest) (hd : decodeCommand c = .ok i) : step s = exec i { s with port := rest } := by
  simp [step, fetch, hp, hc, hd]

theorem step_illegal (s : State) (c : BitVec 32) (e : Reject) (rest : List HostInput) (hc : s.compressing = false)
    (hp : s.port = .word c :: rest) (hd : decodeCommand c = .error e) :
    step s = .next (raise .illegalCmd { s with port := rest }) := by
  simp [step, fetch, hp, hc, hd]

/-- With a compression in progress only a reset is looked at in the port (R46, R190). -/
theorem fetch_compressing (s : State) (hc : s.compressing = true) (hp : NoResetNext s) :
    fetch s = (microOpAt s.UPC).elim .noMicroOp (fun i => .instr i s) := by
  match hport : s.port with
  | [] => cases hi : microOpAt s.UPC <;> simp [fetch, hport, hc, hi]
  | .word c :: rest => cases hi : microOpAt s.UPC <;> simp [fetch, hport, hc, hi]
  | .reset :: rest => exact absurd hport (hp rest)

theorem step_microOp (s : State) (i : Instr) (hc : s.compressing = true) (hp : NoResetNext s)
    (hi : microOpAt s.UPC = some i) : step s = exec i s := by
  simp [step, fetch_compressing s hc hp, hi]

theorem step_noMicroOp (s : State) (hc : s.compressing = true) (hp : NoResetNext s) (hi : microOpAt s.UPC = none) :
    step s = .refused .upcOutsideUrom := by
  simp [step, fetch_compressing s hc hp, hi]

theorem microOpAt_of_decode (p : BitVec 7) (u : BitVec 9) (i : Instr) (hu : uromAt p = some u)
    (hd : decodeMicroOp u = .ok i) : microOpAt p = some i := by
  simp only [microOpAt, hu, hd]

/-- Everything that a step from `s` to `t` can be. -/
inductive Transition (s t : State) : Prop
  /-- Nothing sent (R177). -/
  | wait (hc : s.compressing = false) (hp : s.port = []) (ht : t = s)
  /-- The reset input (R190). -/
  | reset (rest : List HostInput) (hp : s.port = .reset :: rest) (ht : t = resetEvent { s with port := rest })
  /-- One micro-operation of a compression in progress (R125). -/
  | microOp (i : Instr) (hc : s.compressing = true) (hp : NoResetNext s) (hi : microOpAt s.UPC = some i)
      (ht : exec i s = .next t)
  /-- A legal command word (R7). -/
  | command (c : BitVec 32) (i : Instr) (rest : List HostInput) (hc : s.compressing = false)
      (hp : s.port = .word c :: rest) (hd : decodeCommand c = .ok i) (ht : exec i { s with port := rest } = .next t)
  /-- An illegal command word (R65, R161). -/
  | illegal (c : BitVec 32) (e : Reject) (rest : List HostInput) (hc : s.compressing = false)
      (hp : s.port = .word c :: rest) (hd : decodeCommand c = .error e)
      (ht : t = raise .illegalCmd { s with port := rest })

/-- With a compression in progress and no reset, a step that answers performed the micro-operation at `UPC`. -/
theorem compressing_transition (s t : State) (hc : s.compressing = true) (hp : NoResetNext s) (h : step s = .next t) :
    Transition s t := by
  cases hi : microOpAt s.UPC with
  | some i => exact .microOp i hc hp hi (step_microOp s i hc hp hi ▸ h)
  | none => simp [step_noMicroOp s hc hp hi] at h

/-- What a step can do, with the condition of each case. -/
theorem step_transition (s t : State) (h : step s = .next t) : Transition s t := by
  match hp : s.port, hc : s.compressing with
  | .reset :: rest, _ =>
    rw [step_reset s rest hp, Host.Outcome.next.injEq] at h
    exact .reset rest hp h.symm
  | [], true => exact compressing_transition s t hc (by simp [NoResetNext, hp]) h
  | .word c :: rest, true => exact compressing_transition s t hc (by simp [NoResetNext, hp]) h
  | [], false =>
    rw [step_wait s hc hp, Host.Outcome.next.injEq] at h
    exact .wait hc hp h.symm
  | .word c :: rest, false =>
    cases hd : decodeCommand c with
    | ok i => exact .command c i rest hc hp hd (step_command s c i rest hc hp hd ▸ h)
    | error e =>
      rw [step_illegal s c e rest hc hp hd, Host.Outcome.next.injEq] at h
      exact .illegal c e rest hc hp hd h.symm

/-- Settles O48: the three clauses are the equations of the step for a legal command word, for a micro-operation and for
an empty port. -/
theorem stepRunsDecodedInstruction : Obligations.StepRunsDecodedInstruction := by
  intro s
  refine ⟨fun c i rest hc hp hd => step_command s c i rest hc hp hd, fun u i hc hp hu hd => ?_, step_wait s⟩
  exact step_microOp s i hc hp (microOpAt_of_decode s.UPC u i hu hd)

/-! ### The host's side of the engine: parameter, port, responses, reset count

An operation is silent when it writes none of them; a command answers once, and writes nothing else of them. -/

/-- `t` has the parameter, the port, the responses and the reset count of `s`. -/
structure Silent (s t : State) : Prop where
  cfg : t.cfg = s.cfg
  port : t.port = s.port
  resets : t.resets = s.resets
  out : t.out = s.out

/-- `t` has one response more than `s`, after those of `s`, and the parameter, the port and the reset count of `s`. -/
structure AnswersOnce (s t : State) : Prop where
  cfg : t.cfg = s.cfg
  port : t.port = s.port
  resets : t.resets = s.resets
  out : ∃ r, t.out = s.out ++ [r]

theorem Silent.refl (s : State) : Silent s s := ⟨rfl, rfl, rfl, rfl⟩

theorem Silent.trans {s t u : State} (h : Silent s t) (h' : Silent t u) : Silent s u :=
  ⟨h'.cfg.trans h.cfg, h'.port.trans h.port, h'.resets.trans h.resets, h'.out.trans h.out⟩

/-- An answer after silent work is an answer to the state before the work. -/
theorem Silent.answers {s t u : State} (h : Silent s t) (h' : AnswersOnce t u) : AnswersOnce s u :=
  ⟨h'.cfg.trans h.cfg, h'.port.trans h.port, h'.resets.trans h.resets, h.out ▸ h'.out⟩

theorem respond_answersOnce (f : Bool) (d : Word) (s : State) : AnswersOnce s (s.respond f d) :=
  ⟨rfl, rfl, rfl, _, rfl⟩

theorem respondStatus_answersOnce (s : State) : AnswersOnce s s.respondStatus := respond_answersOnce _ _ s

theorem raise_answersOnce (c : Cause) (s : State) : AnswersOnce s (raise c s) :=
  ⟨raise_cfg s c, raise_port s c, raise_resets s c, _, raise_out s c⟩

/-! ### The sequencer and the absorbing of bytes are silent -/

/-- A sequence of two silent operations is silent. -/
theorem andThen_silent {r : Result} {k : State → Result} {s t : State} (hr : ∀ u, r = .next u → Silent s u)
    (hk : ∀ u, k u = .next t → Silent u t) (h : andThen r k = .next t) : Silent s t := by
  obtain ⟨u, hu, ht⟩ := (andThen_eq_next r k t).mp h
  exact (hr u hu).trans (hk u ht)

/-- What writes the datapath and the sequencer only is silent. -/
theorem silent_of_datapath_frame {s t : State}
    (h : t = { s with H := t.H, vars := t.vars, W := t.W, UPC := t.UPC, compressing := t.compressing }) : Silent s t := by
  constructor <;> rw [h]

theorem performMicroOp_silent (i : Instr) (s t : State) (h : performMicroOp i s = .next t) : Silent s t :=
  silent_of_datapath_frame (performMicroOp_frame i s t h)

theorem microStep_silent (s t : State) (h : microStep s = .next t) : Silent s t :=
  silent_of_datapath_frame (microStep_frame s t h)

theorem microLoop_silent (n : Nat) (s t : State) (h : microLoop n s = .next t) : Silent s t := by
  induction n generalizing s with
  | zero =>
    rw [microLoop_zero, Host.Outcome.next.injEq] at h
    exact h ▸ .refl s
  | succ n ih =>
    refine andThen_silent (microStep_silent s) (fun u hu => ?_) (microLoop_succ n s ▸ h)
    split at hu
    · rw [Host.Outcome.next.injEq] at hu
      exact hu ▸ .refl u
    · exact ih u hu

theorem compress_silent (s t : State) (h : compress s = .next t) : Silent s t :=
  have hstart : Silent s { s with compressing := true } := ⟨rfl, rfl, rfl, rfl⟩
  hstart.trans (microLoop_silent 115 _ t h)

theorem absorb_silent (b : Byte) (s t : State) (h : absorb b s = .next t) : Silent s t := by
  have hbyte : Silent s { s.setBlk s.pos b with LEN := (s.setBlk s.pos b).LEN + 1#64 } := ⟨rfl, rfl, rfl, rfl⟩
  simp only [absorb] at h
  split at h
  · exact hbyte.trans (compress_silent _ t h)
  · rw [Host.Outcome.next.injEq] at h
    exact h ▸ hbyte

theorem absorbAll_silent (bs : List Byte) (s t : State) (h : absorbAll bs s = .next t) : Silent s t := by
  induction bs generalizing s with
  | nil =>
    rw [absorbAll, Host.Outcome.next.injEq] at h
    exact h ▸ .refl s
  | cons b rest ih => exact andThen_silent (absorb_silent b s) ih h

theorem setBlkBytes_silent (p : Nat) (bs : List Byte) (s : State) : Silent s (s.setBlkBytes p bs) :=
  ⟨rfl, rfl, rfl, rfl⟩

theorem setBlk_silent (p : Nat) (b : Byte) (s : State) : Silent s (s.setBlk p b) := ⟨rfl, rfl, rfl, rfl⟩

theorem padBlocks_silent (s t : State) (h : padBlocks s = .next t) : Silent s t := by
  have hfill (n : Nat) :=
    (setBlk_silent s.pos 0x80#8 s).trans (setBlkBytes_silent (s.pos + 1) (List.replicate n 0x00#8) _)
  simp only [padBlocks] at h
  split at h
  · refine andThen_silent (fun u hu => (hfill _).trans (compress_silent _ u hu)) (fun u hu => ?_) h
    rw [Host.Outcome.next.injEq] at hu
    exact hu ▸ setBlkBytes_silent _ _ u
  · rw [Host.Outcome.next.injEq] at h
    exact h ▸ hfill _

/-! ### Every command answers once (R67) -/

/-- A command whose body answers once answers once: where its mode check fails, with the fault (R162). -/
theorem requireMode_answersOnce {m : Mode} {s t : State} {body : State → Result}
    (hbody : body s = .next t → AnswersOnce s t) (h : requireMode m s body = .next t) : AnswersOnce s t := by
  obtain ⟨-, heq⟩ | ⟨-, heq⟩ := requireMode_eq m s body
  · exact hbody (heq ▸ h)
  · rw [heq, Host.Outcome.next.injEq] at h
    exact h ▸ raise_answersOnce .badState s

/-- Silent work, then an operation that answers once. -/
theorem andThen_answersOnce {r : Result} {k : State → Result} {s t : State} (hr : ∀ u, r = .next u → Silent s u)
    (hk : ∀ u, k u = .next t → AnswersOnce u t) (h : andThen r k = .next t) : AnswersOnce s t := by
  obtain ⟨u, hu, ht⟩ := (andThen_eq_next r k t).mp h
  exact (hr u hu).answers (hk u ht)

theorem pushAll_answersOnce (bs : List Byte) (s t : State) (h : pushAll bs s = .next t) : AnswersOnce s t := by
  refine requireMode_answersOnce (fun hb => ?_) h
  split at hb
  · rw [Host.Outcome.next.injEq] at hb
    exact hb ▸ raise_answersOnce _ s
  · refine andThen_answersOnce (absorbAll_silent bs s) (fun u hu => ?_) hb
    rw [Host.Outcome.next.injEq] at hu
    exact hu ▸ respondStatus_answersOnce u

theorem execFinal_answersOnce (s t : State) (h : execFinal s = .next t) : AnswersOnce s t := by
  refine requireMode_answersOnce (fun hb => ?_) h
  refine andThen_answersOnce (padBlocks_silent s) (fun u hu => ?_) hb
  refine andThen_answersOnce (fun v hv => (setBlkBytes_silent _ _ u).trans (compress_silent _ v hv)) (fun v hv => ?_) hu
  rw [Host.Outcome.next.injEq] at hv
  have hdone : Silent v { v with MODE := .done } := ⟨rfl, rfl, rfl, rfl⟩
  exact hv ▸ hdone.answers (respondStatus_answersOnce _)

theorem execInit_answersOnce (s t : State) (h : execInit s = .next t) : AnswersOnce s t := by
  have hopen : Silent s (openMessage s) := ⟨rfl, rfl, rfl, rfl⟩
  rw [execInit, Host.Outcome.next.injEq] at h
  exact h ▸ hopen.answers (respondStatus_answersOnce _)

theorem execNop_answersOnce (s t : State) (h : execNop s = .next t) : AnswersOnce s t := by
  rw [execNop, Host.Outcome.next.injEq] at h
  exact h ▸ respondStatus_answersOnce s

theorem execRdlen_answersOnce (idx : BitVec 4) (s t : State) (h : execRdlen idx s = .next t) : AnswersOnce s t := by
  simp only [execRdlen] at h
  split at h <;> rw [Host.Outcome.next.injEq] at h
  · exact h ▸ respond_answersOnce _ _ s
  · exact h ▸ raise_answersOnce _ s

/-- A read-out of one word in DONE answers once: `RDX`, and `RDH` with a legal index. -/
theorem requireMode_respond_answersOnce {m : Mode} {s t : State} {d : State → Word}
    (h : requireMode m s (fun s => .next (s.respond false (d s))) = .next t) : AnswersOnce s t := by
  refine requireMode_answersOnce (fun hb => ?_) h
  rw [Host.Outcome.next.injEq] at hb
  exact hb ▸ respond_answersOnce _ _ s

theorem execRdh_answersOnce (idx : BitVec 4) (s t : State) (h : execRdh idx s = .next t) : AnswersOnce s t := by
  simp only [execRdh] at h
  split at h
  · exact requireMode_respond_answersOnce h
  · rw [Host.Outcome.next.injEq] at h
    exact h ▸ raise_answersOnce _ s

theorem execRdx_answersOnce (idx : BitVec 4) (s t : State) (h : execRdx idx s = .next t) : AnswersOnce s t :=
  requireMode_respond_answersOnce h

theorem exec_command_answersOnce (i : Instr) (s t : State) (hi : isCommand i = true) (h : exec i s = .next t) :
    AnswersOnce s t := by
  cases i with
  | nop => exact execNop_answersOnce s t h
  | init => exact execInit_answersOnce s t h
  | final => exact execFinal_answersOnce s t h
  | push1 b0 => exact pushAll_answersOnce [b0] s t h
  | push2 b0 b1 => exact pushAll_answersOnce [b0, b1] s t h
  | push3 b0 b1 b2 => exact pushAll_answersOnce [b0, b1, b2] s t h
  | rdst => exact execNop_answersOnce s t h
  | rdlen idx => exact execRdlen_answersOnce idx s t h
  | rdh idx => exact execRdh_answersOnce idx s t h
  | rdx idx => exact execRdx_answersOnce idx s t h
  | loadw | expand _ | seed | round _ | fold => simp [isCommand] at hi

/-- A micro-operation does under the dispatch what it does in the sequencer. -/
theorem exec_eq_performMicroOp (i : Instr) (s : State) (hi : isCommand i = false) : exec i s = performMicroOp i s := by
  cases i with
  | loadw | expand _ | seed | round _ | fold => rfl
  | nop | init | final | push1 _ | push2 _ _ | push3 _ _ _ | rdst | rdlen _ | rdh _ | rdx _ => simp [isCommand] at hi

theorem exec_microOp_silent (i : Instr) (s t : State) (hi : isCommand i = false) (h : exec i s = .next t) : Silent s t :=
  performMicroOp_silent i s t (exec_eq_performMicroOp i s hi ▸ h)

/-! ### The parameter and the responses over a step -/

/-- `t` has the parameter of `s` and at most one response more, after those of `s`: what O56 says of a step. -/
def KeepsParameterAndResponses (s t : State) : Prop :=
  t.cfg = s.cfg ∧ ∃ rs : List Response, t.out = s.out ++ rs ∧ rs.length ≤ 1

theorem Silent.keeps {s t : State} (h : Silent s t) : KeepsParameterAndResponses s t :=
  ⟨h.cfg, [], by simp [h.out], by simp⟩

theorem AnswersOnce.keeps {s t : State} (h : AnswersOnce s t) : KeepsParameterAndResponses s t :=
  have ⟨r, hr⟩ := h.out
  ⟨h.cfg, [r], hr, by simp⟩

theorem exec_keeps (i : Instr) (s t : State) (h : exec i s = .next t) : KeepsParameterAndResponses s t := by
  cases hi : isCommand i with
  | true => exact (exec_command_answersOnce i s t hi h).keeps
  | false => exact (exec_microOp_silent i s t hi h).keeps

/-- Settles O56: waiting and reset leave the parameter and the responses, an instruction answers at most once, an illegal
word once. -/
theorem parameterIsConstantAndResponsesStay : Obligations.ParameterIsConstantAndResponsesStay := by
  intro s t h
  cases step_transition s t h with
  | wait _ _ ht => exact ht ▸ (Silent.refl s).keeps
  | reset rest _ ht => exact ht ▸ ⟨resetEvent_cfg _, [], by simp, by simp⟩
  | microOp i _ _ _ ht => exact exec_keeps i s t ht
  | command c i rest _ _ _ ht => exact exec_keeps i { s with port := rest } t ht
  | illegal c e rest _ _ _ ht => exact ht ▸ (raise_answersOnce .illegalCmd { s with port := rest }).keeps

end Sys2Proof.Proofs
end

section
/-! PROOFS, family 10_state, part 1: the status word, the reset state, the round constants, the canonical form of `BLK`
(R15, R16, R20, R24, R29), and the refusal of a `UPC` outside `UROM` (R22). -/

namespace Sys2Proof.Proofs
open Sys2Proof.Machine Sys2Proof.Laws

/-! ### The status word (R24) -/

/-- Settles O12: each field is found by dropping the fields below it and then the fields above it. -/
theorem statusWordFields : Obligations.StatusWordFields := by
  refine ⟨rfl, rfl, rfl, rfl, fun s => ?_⟩
  simp only [State.status]
  refine ⟨BitVec.extractLsb'_append_eq_right, ?_, ?_, ?_, ?_⟩
  · rw [BitVec.extractLsb'_append_eq_of_le (by decide)]
    exact BitVec.extractLsb'_append_eq_right
  · rw [BitVec.extractLsb'_append_eq_of_le (by decide), BitVec.extractLsb'_append_eq_of_le (by decide)]
    exact BitVec.extractLsb'_append_eq_right
  · rw [BitVec.extractLsb'_append_eq_of_le (by decide), BitVec.extractLsb'_append_eq_of_le (by decide),
      BitVec.extractLsb'_append_eq_of_le (by decide), BitVec.extractLsb'_append_eq_right, BitVec.extractLsb'_toNat,
      Nat.shiftRight_zero]
  · rw [BitVec.extractLsb'_append_eq_of_le (by decide), BitVec.extractLsb'_append_eq_of_le (by decide),
      BitVec.extractLsb'_append_eq_of_le (by decide)]
    exact BitVec.extractLsb'_append_eq_left

/-! ### The round constants (R16) -/

/-- The primes p(0) = 2 to p(63) = 311 of R16. -/
def firstPrimes : Vector Nat 64 :=
  #v[2, 3, 5, 7, 11, 13, 17, 19, 23, 29, 31, 37, 41, 43, 47, 53,
     59, 61, 67, 71, 73, 79, 83, 89, 97, 101, 103, 107, 109, 113, 127, 131,
     137, 139, 149, 151, 157, 163, 167, 173, 179, 181, 191, 193, 197, 199, 211, 223,
     227, 229, 233, 239, 241, 251, 257, 263, 269, 271, 277, 281, 283, 293, 307, 311]

/-- The entry p(t) of `firstPrimes`. -/
def primeAt (t : BitVec 6) : Nat := firstPrimes[t.toNat]'t.isLt

theorem primeAt_prime_count : ∀ t : BitVec 6, Nat.Prime (primeAt t) ∧ Nat.count Nat.Prime (primeAt t) = t.toNat := by
  decide +kernel

theorem nth_prime_eq_primeAt (t : BitVec 6) : Nat.nth Nat.Prime t.toNat = primeAt t := by
  obtain ⟨hp, hc⟩ := primeAt_prime_count t
  rw [← hc, Nat.nth_count hp]

/-- The whole part of the cube root of `p(t)`, which is at most 6, since p(t) < 343. -/
def wholeCubeRoot (p : Nat) : Nat := Nat.findGreatest (fun c => c ^ 3 ≤ p) 6

/-- The cube root of `p(t)` in units of 2^-32: its whole part, then `K[t]` as its fraction. -/
def scaledCubeRoot (t : BitVec 6) : Nat := 2 ^ 32 * wholeCubeRoot (primeAt t) + (kAt t).toNat

theorem scaledCubeRoot_bounds : ∀ t : BitVec 6, scaledCubeRoot t ^ 3 ≤ primeAt t * 2 ^ 96 ∧
    primeAt t * 2 ^ 96 < (scaledCubeRoot t + 1) ^ 3 := by
  decide +kernel

theorem kAt_eq_ofNat_scaledCubeRoot (t : BitVec 6) : kAt t = BitVec.ofNat 32 (scaledCubeRoot t) := by
  apply BitVec.eq_of_toNat_eq
  rw [BitVec.toNat_ofNat, scaledCubeRoot, Nat.mul_add_mod, Nat.mod_eq_of_lt (kAt t).isLt]

/-- Settles O11: the integer cube root of `p(t) * 2^96` is `scaledCubeRoot t`, of which `K[t]` is the low word. -/
theorem roundConstantsAreCubeRoots : Obligations.RoundConstantsAreCubeRoots := by
  intro t
  obtain ⟨hle, hlt⟩ := scaledCubeRoot_bounds t
  rw [nth_prime_eq_primeAt t]
  exact ⟨scaledCubeRoot t, hle, hlt, kAt_eq_ofNat_scaledCubeRoot t⟩

/-! ### Reset and the sequencer -/

/-- Settles O13: the fields of the reset state, as written. -/
theorem resetControlState : Obligations.ResetControlState := ⟨rfl, rfl, rfl, rfl, rfl⟩

theorem reset_inv : State.reset.Inv where
  between := ⟨rfl, rfl⟩
  errIff := by decide
  errBound := by decide
  lenBound := by decide
  lenFits := by decide
  idleLen := fun _ => rfl
  blkForm := rfl
  cfgDomain := by decide

theorem reset_messageInv : State.reset.MessageInv where
  absorbing := fun h => nomatch h
  finished := fun h => nomatch h

/-- Settles O15: in IDLE no message is open, and nothing is asked of the datapath but the form of `BLK`. -/
theorem invariantsHoldAtReset : Obligations.InvariantsHoldAtReset := ⟨reset_inv, reset_messageInv⟩

/-- Settles O24: `UROM` has no word from 115 on. -/
theorem upcOutsideUromIsRefused : Obligations.UpcOutsideUromIsRefused := fun s hc hu hp =>
  step_noMicroOp s hc hp (microOpAt_none s.UPC hu)

/-! ### The canonical form of `BLK` -/

theorem risingFrom_cons (lo a : Nat) (v : Byte) (m : Memory) :
    Memory.risingFrom lo ((a, v) :: m) = true ↔
      lo ≤ a ∧ a < 64 ∧ v ≠ unwritten ∧ Memory.risingFrom (a + 1) m = true := by
  simp only [Memory.risingFrom, Bool.and_eq_true, decide_eq_true_eq, and_assoc]

/-- From address 64 on nothing is listed. -/
theorem read_of_ge_64 (m : Memory) (lo p : Nat) (h : m.risingFrom lo = true) (hp : 64 ≤ p) :
    m.read p = unwritten := by
  induction m generalizing lo with
  | nil => rfl
  | cons c rest ih =>
    obtain ⟨-, ha, -, hrest⟩ := (risingFrom_cons lo c.1 c.2 rest).mp h
    rw [read_cons, if_neg (by omega)]
    exact ih (c.1 + 1) hrest

/-- The first listed address is the first whose byte needs a cell. -/
theorem head_le_of_read_ne (m : Memory) (lo a p : Nat) (v : Byte) (h : Memory.risingFrom lo ((a, v) :: m) = true)
    (hp : Memory.read ((a, v) :: m) p ≠ unwritten) : a ≤ p := by
  obtain ⟨-, ha, hv, hrest⟩ := (risingFrom_cons lo a v m).mp h
  by_contra hlt
  exact hp (read_of_lt _ a p ((risingFrom_cons a a v m).mpr ⟨le_rfl, ha, hv, hrest⟩) (by omega))

/-- The tail reads like the whole list but at the first listed address, where it holds nothing. -/
theorem read_tail (m : Memory) (a p : Nat) (v : Byte) (h : Memory.risingFrom (a + 1) m = true) :
    Memory.read m p = if p = a then unwritten else Memory.read ((a, v) :: m) p := by
  split
  · next hp => exact read_of_lt m (a + 1) p h (by omega)
  · next hp => rw [read_cons, if_neg (Ne.symm hp)]

/-- Two rising lists that read equal everywhere are equal: they start at the same cell, and their tails read equal. -/
theorem eq_of_risingFrom_of_read (m m' : Memory) (lo : Nat) (h : m.risingFrom lo = true)
    (h' : m'.risingFrom lo = true) (hr : ∀ p, m.read p = m'.read p) : m = m' := by
  induction m generalizing m' lo with
  | nil =>
    match m' with
    | [] => rfl
    | (a, v) :: rest =>
      obtain ⟨-, -, hv, -⟩ := (risingFrom_cons lo a v rest).mp h'
      have := hr a
      simp [read_nil, read_cons, hv.symm] at this
  | cons c rest ih =>
    obtain ⟨a, v⟩ := c
    obtain ⟨-, -, hv, hrest⟩ := (risingFrom_cons lo a v rest).mp h
    have hra : Memory.read ((a, v) :: rest) a = v := by simp [read_cons]
    match m' with
    | [] => exact absurd (hra.symm.trans (hr a)) hv
    | (a', v') :: rest' =>
      obtain ⟨-, -, hv', hrest'⟩ := (risingFrom_cons lo a' v' rest').mp h'
      have hra' : Memory.read ((a', v') :: rest') a' = v' := by simp [read_cons]
      have haa' : a = a' := le_antisymm
        (head_le_of_read_ne rest lo a a' v h (by rwa [hr a', hra']))
        (head_le_of_read_ne rest' lo a' a v' h' (by rwa [← hr a, hra]))
      subst haa'
      have hvv' : v = v' := by rw [← hra, hr a, hra']
      have htail : rest = rest' := ih rest' (a + 1) hrest hrest' (fun p => by
        rw [read_tail rest a p v hrest, read_tail rest' a p v' hrest', hr p])
      rw [hvv', htail]

/-- Settles O57: buffers in the canonical form that read equal in the block read equal everywhere. -/
theorem equalBlocksAreEqualData : Obligations.EqualBlocksAreEqualData := by
  intro m m' h h' hr
  refine eq_of_risingFrom_of_read m m' 0 h h' (fun p => ?_)
  by_cases hp : p < 64
  · exact hr p hp
  · rw [read_of_ge_64 m 0 p h (by omega), read_of_ge_64 m' 0 p h' (by omega)]

end Sys2Proof.Proofs
end

section
/-! PROOFS, family 10_state, part 2: one block compression in closed form. The micro-program is walked in its five
parts, and `compress_eq` says what `COMPRESS` leaves in every register (R125, R126); later proofs use it alone. -/

namespace Sys2Proof.Proofs

open Sys2Proof.Machine Sys2Proof.Laws

/-! ### The schedule of R126 -/

theorem schedulePrefix_length (b : Vector Byte 64) (n : Nat) : (schedulePrefix b n).length = n := by
  induction n with
  | zero => rfl
  | succ n ih => simp [schedulePrefix, ih]

/-- A longer beginning of the schedule keeps the words of a shorter one. -/
theorem schedulePrefix_getD_succ (b : Vector Byte 64) (n t : Nat) (h : t < n) :
    (schedulePrefix b (n + 1)).getD t 0#32 = (schedulePrefix b n).getD t 0#32 := by
  rw [schedulePrefix, List.getD_append _ _ _ _ (by rwa [schedulePrefix_length])]

theorem schedulePrefix_getD_of_le (b : Vector Byte 64) (n n' t : Nat) (h : t < n) (hn : n ≤ n') :
    (schedulePrefix b n').getD t 0#32 = (schedulePrefix b n).getD t 0#32 := by
  induction n', hn using Nat.le_induction with
  | base => rfl
  | succ n' hn ih => rw [schedulePrefix_getD_succ b n' t (by omega), ih]

theorem scheduleOf_getElem (b : Vector Byte 64) (n t : Nat) (ht : t < 64) (h : t < n) (hn : n ≤ 64) :
    (scheduleOf b)[t] = (schedulePrefix b n).getD t 0#32 := by
  rw [← schedulePrefix_getD_of_le b n 64 t h hn]
  simp [scheduleOf]

/-- Words 0 to 15 of the schedule are assembled from the block. -/
theorem scheduleOf_lt_16 (b : Vector Byte 64) (t : Nat) (ht : t < 16) :
    (scheduleOf b)[t] = fromBe32 b[4 * t] b[4 * t + 1] b[4 * t + 2] b[4 * t + 3] := by
  rw [scheduleOf_getElem b (t + 1) t (by omega) (by omega) (by omega), schedulePrefix,
    List.getD_append_right _ _ _ _ (by rw [schedulePrefix_length])]
  simp [schedulePrefix_length, ht, show 4 * t < 64 by omega, show 4 * t + 1 < 64 by omega,
    show 4 * t + 2 < 64 by omega, show 4 * t + 3 < 64 by omega]

/-- The other words of the schedule satisfy the recurrence. -/
theorem scheduleOf_ge_16 (b : Vector Byte 64) (t : Nat) (h16 : 16 ≤ t) (ht : t < 64) :
    (scheduleOf b)[t] = scheduleWord (scheduleOf b)[t - 2] (scheduleOf b)[t - 7] (scheduleOf b)[t - 15]
      (scheduleOf b)[t - 16] := by
  rw [scheduleOf_getElem b (t + 1) t (by omega) (by omega) (by omega), schedulePrefix,
    List.getD_append_right _ _ _ _ (by rw [schedulePrefix_length]), schedulePrefix_length, Nat.sub_self,
    if_neg (by omega), List.getD_cons_zero]
  simp only [scheduleOf_getElem b t _ _ _ ht.le, show t - 2 < t by omega, show t - 7 < t by omega,
    show t - 15 < t by omega, show t - 16 < t by omega]

/-! ### The micro-program, part by part (R69, R127) -/

/-- `s` with a compression in progress at place `u`, with schedule words `w` and working variables `v`. -/
def inProgress (s : State) (w : Vector Word 64) (v : Vars) (u : BitVec 7) : State :=
  { s with W := w, vars := v, UPC := u, compressing := true }

/-- One pass of the loop of R125 before the last. -/
theorem microLoop_pass {s : State} {w w' : Vector Word 64} {v v' : Vars} {u : BitVec 7} {i : Instr} (n : Nat)
    (hi : microOpAt u = some i) (hu : u ≠ 114#7)
    (ht : performMicroOp i (inProgress s w v u) = .next (inProgress s w' v' (u + 1#7))) :
    microLoop (n + 1) (inProgress s w v u) = microLoop n (inProgress s w' v' (u + 1#7)) := by
  rw [microLoop_succ, microStep_of (inProgress s w v u) i hi, ht, andThen_next]
  exact if_neg hu

/-- With `d + 1` words left to expand, the micro-program stands at the `EXPAND` of the first of them. -/
theorem expand_place : ∀ d < 48, microOpAt (BitVec.ofNat 7 (48 - d)) = some (.expand (BitVec.ofNat 6 (63 - d))) ∧
    BitVec.ofNat 7 (48 - d) ≠ 114#7 ∧ BitVec.ofNat 7 (48 - d) + 1#7 = BitVec.ofNat 7 (49 - d) := by decide

/-- With `d + 1` rounds left, the micro-program stands at the first of them. -/
theorem round_place : ∀ d < 64, microOpAt (BitVec.ofNat 7 (113 - d)) = some (.round (BitVec.ofNat 6 (63 - d))) ∧
    BitVec.ofNat 7 (113 - d) ≠ 114#7 ∧ BitVec.ofNat 7 (113 - d) + 1#7 = BitVec.ofNat 7 (114 - d) := by decide

/-- The schedule `w` with the word `t` of R121. -/
def expandedW (w : Vector Word 64) (t : Nat) (h : t < 64) : Vector Word 64 :=
  w.set t (scheduleWord w[t - 2] w[t - 7] w[t - 15] w[t - 16])

/-- The schedule words below `n` are those of the block `b`. -/
def ScheduledBelow (b : Vector Byte 64) (n : Nat) (w : Vector Word 64) : Prop :=
  ∀ (i : Nat) (h : i < 64), i < n → w[i] = (scheduleOf b)[i]

theorem loadedW_scheduledBelow (b : Vector Byte 64) (w : Vector Word 64) : ScheduledBelow b 16 (loadedW w b) := by
  intro i _ hi
  rw [scheduleOf_lt_16 b i hi]
  simp [loadedW, hi]

theorem ScheduledBelow.expand {b : Vector Byte 64} {w : Vector Word 64} {t : Nat} (hw : ScheduledBelow b t w)
    (h16 : 16 ≤ t) (ht : t < 64) : ScheduledBelow b (t + 1) (expandedW w t ht) := by
  intro i hi hit
  by_cases h : i = t
  · subst h
    rw [expandedW, Vector.getElem_set_self, scheduleOf_ge_16 b i h16 hi, hw (i - 2) _ (by omega),
      hw (i - 7) _ (by omega), hw (i - 15) _ (by omega), hw (i - 16) _ (by omega)]
  · rw [expandedW, Vector.getElem_set_ne _ _ (Ne.symm h), hw i hi (by omega)]

theorem ScheduledBelow.eq_scheduleOf {b : Vector Byte 64} {w : Vector Word 64} (hw : ScheduledBelow b 64 w) :
    w = scheduleOf b := Vector.ext fun i hi => hw i hi hi

theorem performMicroOp_loadw (s : State) (w : Vector Word 64) (v : Vars) (u : BitVec 7) :
    performMicroOp .loadw (inProgress s w v u) = .next (inProgress s (loadedW w s.BLK.block) v (u + 1#7)) := rfl

theorem performMicroOp_seed (s : State) (w : Vector Word 64) (v : Vars) (u : BitVec 7) :
    performMicroOp .seed (inProgress s w v u) = .next (inProgress s w (seedVars s.H) (u + 1#7)) := rfl

theorem performMicroOp_fold (s : State) (w : Vector Word 64) (v : Vars) (u : BitVec 7) :
    performMicroOp .fold (inProgress s w v u) =
      .next { s with H := foldHash s.H v, W := w, vars := v, UPC := 0#7, compressing := false } := rfl

theorem performMicroOp_expand (s : State) (w : Vector Word 64) (v : Vars) (u : BitVec 7) (t : Nat) (h16 : 16 ≤ t)
    (ht : t < 64) :
    performMicroOp (.expand (BitVec.ofNat 6 t)) (inProgress s w v u) =
      .next (inProgress s (expandedW w t ht) v (u + 1#7)) := by
  have hsub (k : Nat) (hk : k ≤ 16) : (BitVec.ofNat 6 t - BitVec.ofNat 6 k).toNat = t - k := by
    rw [BitVec.toNat_sub_of_le (by simp [BitVec.le_def]; omega)]
    simp; omega
  have hle : 16#6 ≤ BitVec.ofNat 6 t := by simp [BitVec.le_def]; omega
  have hself : (BitVec.ofNat 6 t).toNat = t := by simp; omega
  simp only [performMicroOp, execExpand, if_pos hle, State.setW, State.wAt, hself, hsub 2 (by decide),
    hsub 7 (by decide), hsub 15 (by decide), hsub 16 (by decide)]
  rfl

theorem performMicroOp_round (s : State) (w : Vector Word 64) (h : Vector Word 8) (u : BitVec 7) (t : Nat)
    (ht : t < 64) :
    performMicroOp (.round (BitVec.ofNat 6 t)) (inProgress s w (roundsOf h w t) u) =
      .next (inProgress s w (roundsOf h w (t + 1)) (u + 1#7)) := by
  have hself : (BitVec.ofNat 6 t).toNat = t := by simp; omega
  have hword : w.toList.getD t 0#32 = w[t] := by simp [ht]
  simp only [performMicroOp, execRound, roundsOf, State.wAt, hself, hword]
  rfl

/-- The `EXPAND` part: with `d` words left it ends at `SEED` with the whole schedule. -/
theorem microLoop_expand (n d : Nat) (s : State) (b : Vector Byte 64) (w : Vector Word 64) (v : Vars) (hd : d ≤ 48)
    (hw : ScheduledBelow b (64 - d) w) :
    microLoop (n + d) (inProgress s w v (BitVec.ofNat 7 (49 - d))) =
      microLoop n (inProgress s (scheduleOf b) v 49#7) := by
  induction d generalizing w with
  | zero => rw [hw.eq_scheduleOf]; rfl
  | succ d ih =>
    obtain ⟨hop, hlast, hnext⟩ := expand_place d (by omega)
    rw [show 64 - (d + 1) = 63 - d by omega] at hw
    have hw' := hw.expand (by omega) (by omega)
    rw [show 63 - d + 1 = 64 - d by omega] at hw'
    rw [show 49 - (d + 1) = 48 - d by omega, ← Nat.add_assoc,
      microLoop_pass (n + d) hop hlast (performMicroOp_expand s w v _ (63 - d) (by omega) (by omega)), hnext]
    exact ih _ (by omega) hw'

/-- The `ROUND` part: with `d` rounds left it ends at `FOLD` with the working variables after 64 rounds. -/
theorem microLoop_round (n d : Nat) (s : State) (w : Vector Word 64) (h : Vector Word 8) (hd : d ≤ 64) :
    microLoop (n + d) (inProgress s w (roundsOf h w (64 - d)) (BitVec.ofNat 7 (114 - d))) =
      microLoop n (inProgress s w (roundsOf h w 64) 114#7) := by
  induction d with
  | zero => rfl
  | succ d ih =>
    obtain ⟨hop, hlast, hnext⟩ := round_place d (by omega)
    rw [show 64 - (d + 1) = 63 - d by omega, show 114 - (d + 1) = 113 - d by omega, ← Nat.add_assoc,
      microLoop_pass (n + d) hop hlast (performMicroOp_round s w h _ (63 - d) (by omega)), hnext,
      show 63 - d + 1 = 64 - d by omega]
    exact ih (by omega)

/-- The last pass, which ends the loop. -/
theorem microLoop_fold (n : Nat) (s : State) (w : Vector Word 64) (v : Vars) :
    microLoop (n + 1) (inProgress s w v 114#7) =
      .next { s with H := foldHash s.H v, W := w, vars := v, UPC := 0#7, compressing := false } := by
  have hop := microStep_of (inProgress s w v 114#7) .fold microOpAt_fold
  rw [microLoop_succ, hop, performMicroOp_fold, andThen_next]
  exact if_pos rfl

/-! ### `COMPRESS` in closed form (R126) -/

/-- The state after a block compression: `W`, `a..h` and `H` by the closed form of R126. -/
def compressed (s : State) : State :=
  { s with
    H := compressBlock s.H s.BLK.block
    W := scheduleOf s.BLK.block
    vars := roundsOf s.H (scheduleOf s.BLK.block) 64
    UPC := 0#7
    compressing := false }

theorem compress_eq (s : State) (h : s.UPC = 0#7) : compress s = .next (compressed s) := by
  have hstart : ({ s with compressing := true } : State) = inProgress s s.W s.vars 0#7 := by simp [inProgress, h]
  calc compress s
    _ = microLoop 115 (inProgress s s.W s.vars 0#7) := by rw [compress, hstart]
    _ = microLoop 114 (inProgress s (loadedW s.W s.BLK.block) s.vars 1#7) :=
      microLoop_pass 114 microOpAt_zero (by decide) (performMicroOp_loadw ..)
    _ = microLoop 66 (inProgress s (scheduleOf s.BLK.block) s.vars 49#7) :=
      microLoop_expand 66 48 s _ _ _ le_rfl (loadedW_scheduledBelow _ _)
    _ = microLoop 65 (inProgress s (scheduleOf s.BLK.block) (seedVars s.H) 50#7) :=
      microLoop_pass 65 microOpAt_seed (by decide) (performMicroOp_seed ..)
    _ = microLoop 1 (inProgress s (scheduleOf s.BLK.block) (roundsOf s.H (scheduleOf s.BLK.block) 64) 114#7) :=
      microLoop_round 1 64 s _ _ le_rfl
    _ = .next (compressed s) := by rw [microLoop_fold 0, compressed, compressBlock]

end Sys2Proof.Proofs
end

section
/-! PROOFS, family 10_state, part 3: what a command does, said once. Each message operation is an equation with a total
function of the state; `effectOf` reads off what a command does, `exec_eq_apply` that it does it. -/

namespace Sys2Proof.Proofs

open Sys2Proof.Machine Sys2Proof.Laws

@[simp] theorem compressed_BLK (s : State) : (compressed s).BLK = s.BLK := rfl
@[simp] theorem compressed_H (s : State) : (compressed s).H = compressBlock s.H s.BLK.block := rfl

/-! ### Absorbing bytes (R103) -/

/-- The byte at `POS`, counted. -/
def withByte (b : Byte) (s : State) : State := { s.setBlk s.pos b with LEN := s.LEN + 1#64 }

/-- The state after `absorb(b)`. -/
def absorbed (b : Byte) (s : State) : State :=
  if (withByte b s).pos = 0 then compressed (withByte b s) else withByte b s

/-- The state after absorbing bytes in order. -/
def absorbedAll (bs : List Byte) (s : State) : State := bs.foldl (fun s b => absorbed b s) s

theorem absorb_eq (b : Byte) (s : State) (h : s.UPC = 0#7) : absorb b s = .next (absorbed b s) := by
  rw [absorbed]
  split
  · next hp => exact (if_pos hp).trans (compress_eq (withByte b s) h)
  · next hp => exact if_neg hp

/-- An absorbed byte writes the datapath, the block and the byte counter only. -/
theorem absorbed_frame (b : Byte) (s : State) (h : s.Between) :
    absorbed b s = { s with
      H := (absorbed b s).H, vars := (absorbed b s).vars, W := (absorbed b s).W
      BLK := s.BLK.write s.pos b, LEN := s.LEN + 1#64 } := by
  rw [absorbed]
  split
  · simp [compressed, withByte, State.setBlk, h.upc, h.idleSequencer]
  · rfl

theorem absorbed_between {b : Byte} {s : State} (h : s.Between) : (absorbed b s).Between := by
  rw [absorbed_frame b s h]
  exact ⟨h.upc, h.idleSequencer⟩

theorem absorbAll_eq (bs : List Byte) (s : State) (h : s.Between) : absorbAll bs s = .next (absorbedAll bs s) := by
  induction bs generalizing s with
  | nil => rfl
  | cons b rest ih => rw [absorbAll, absorb_eq b s h.upc, andThen_next, ih _ (absorbed_between h)]; rfl

/-! ### `FINAL` (R107) -/

/-- The terminator at `POS` and zeros after it up to the cell before `n`. -/
def terminated (n : Nat) (s : State) : State :=
  (s.setBlk s.pos 0x80#8).setBlkBytes (s.pos + 1) (List.replicate (n - 1 - s.pos) 0x00#8)

/-- The state before the length field of `FINAL` is written. -/
def padded (s : State) : State :=
  if 56 ≤ s.pos then (compressed (terminated 64 s)).setBlkBytes 0 (List.replicate 56 0x00#8) else terminated 56 s

/-- The state after `FINAL`, without its response. -/
def finished (s : State) : State :=
  { compressed ((padded s).setBlkBytes 56 (be64 s.bitLength)) with MODE := .done }

theorem padBlocks_eq (s : State) (h : s.UPC = 0#7) : padBlocks s = .next (padded s) := by
  rw [padded]
  split
  · next hp =>
    refine (if_pos hp).trans ?_
    rw [compress_eq _ (by exact h), andThen_next]
    rfl
  · next hp => exact if_neg hp

theorem padded_UPC (s : State) (h : s.UPC = 0#7) : (padded s).UPC = 0#7 := by
  rw [padded]
  split
  · rfl
  · exact h

/-! ### The effect of a command -/

/-- What a command does to the engine. -/
inductive Effect
  /-- It answers a word and writes nothing else (R49). -/
  | answer (d : Word)
  /-- It takes the fault entry (R165). -/
  | fault (c : Cause)
  /-- It opens a message (R100). -/
  | start
  /-- It absorbs bytes (R104 to R106). -/
  | push (bs : List Byte)
  /-- It completes the message (R107). -/
  | finish

/-- The state after the effect. -/
def Effect.apply (e : Effect) (s : State) : State :=
  match e with
  | .answer d => s.respond false d
  | .fault c => raise c s
  | .start => (openMessage s).respondStatus
  | .push bs => (absorbedAll bs s).respondStatus
  | .finish => (finished s).respondStatus

/-- The effect of a command that only the mode `m` permits (R162). -/
def onlyIn (m : Mode) (s : State) (e : Effect) : Effect := if s.MODE = m then e else .fault .badState

/-- The effect of a push: the admission check comes before any byte (R102, R163). -/
def pushEffect (bs : List Byte) (s : State) : Effect :=
  onlyIn .absorb s ((admission bs.length s).elim (.push bs) .fault)

/-- The effect of a command in a state between commands. A micro-operation is no command and stands here for an illegal
one; every lemma below is about commands. -/
def effectOf (i : Instr) (s : State) : Effect :=
  match i with
  | .nop | .rdst => .answer s.status
  | .init => .start
  | .final => onlyIn .absorb s .finish
  | .push1 b0 => pushEffect [b0] s
  | .push2 b0 b1 => pushEffect [b0, b1] s
  | .push3 b0 b1 b2 => pushEffect [b0, b1, b2] s
  | .rdlen idx => if idx ≤ 1#4 then .answer (lenHalf s.LEN (idx == 1#4)) else .fault .illegalCmd
  | .rdh idx => if idx ≤ 7#4 then onlyIn .done s (.answer (s.hAt (idx.setWidth 3))) else .fault .illegalCmd
  | .rdx idx => onlyIn .done s (.answer (hexQuad s.H idx))
  | .loadw | .expand _ | .seed | .round _ | .fold => .fault .illegalCmd

/-- A command behind a mode check has the effect of its body in that mode. -/
theorem requireMode_eq_apply (m : Mode) (s : State) (body : State → Result) (e : Effect)
    (h : s.MODE = m → body s = .next (e.apply s)) : requireMode m s body = .next ((onlyIn m s e).apply s) := by
  rw [requireMode, onlyIn]
  split
  · next hm => exact h hm
  · rfl

theorem pushAll_eq_apply (bs : List Byte) (s : State) (h : s.Between) :
    pushAll bs s = .next ((pushEffect bs s).apply s) := by
  refine requireMode_eq_apply .absorb s _ _ (fun _ => ?_)
  cases admission bs.length s with
  | some c => rfl
  | none => simp only [absorbAll_eq bs s h, andThen_next]; rfl

theorem execFinal_eq_apply (s : State) (h : s.Between) :
    execFinal s = .next ((onlyIn .absorb s .finish).apply s) := by
  refine requireMode_eq_apply .absorb s _ .finish (fun _ => ?_)
  rw [padBlocks_eq s h.upc, andThen_next, compress_eq _ (by exact padded_UPC s h.upc), andThen_next]
  rfl

theorem readDone_eq_apply (s : State) (d : State → Word) :
    requireMode .done s (fun s => .next (s.respond false (d s))) = .next ((onlyIn .done s (.answer (d s))).apply s) :=
  requireMode_eq_apply .done s _ (.answer (d s)) (fun _ => rfl)

/-- Every command between commands answers, with its effect. -/
theorem exec_eq_apply (i : Instr) (s : State) (hi : isCommand i = true) (h : s.Between) :
    exec i s = .next ((effectOf i s).apply s) := by
  cases i with
  | nop | rdst | init => rfl
  | final => exact execFinal_eq_apply s h
  | push1 b0 => exact pushAll_eq_apply [b0] s h
  | push2 b0 b1 => exact pushAll_eq_apply [b0, b1] s h
  | push3 b0 b1 b2 => exact pushAll_eq_apply [b0, b1, b2] s h
  | rdlen idx => simp only [exec, execRdlen, effectOf]; split <;> rfl
  | rdh idx =>
    simp only [exec, execRdh, effectOf]
    split
    · exact readDone_eq_apply s _
    · rfl
  | rdx idx => exact readDone_eq_apply s (fun s => hexQuad s.H idx)
  | loadw | expand _ | seed | round _ | fold => simp [isCommand] at hi

/-! ### What lets an effect happen (R102, R162) -/

/-- Bytes are absorbed in ABSORB and after the admission check; a message is completed in ABSORB. -/
def Effect.Allowed (e : Effect) (s : State) : Prop :=
  match e with
  | .push bs => s.MODE = .absorb ∧ s.Admits bs.length
  | .finish => s.MODE = .absorb
  | .answer _ | .fault _ | .start => True

theorem onlyIn_allowed (m : Mode) (s : State) (e : Effect) (h : s.MODE = m → e.Allowed s) :
    (onlyIn m s e).Allowed s := by
  rw [onlyIn]
  split
  · next hm => exact h hm
  · trivial

theorem pushEffect_allowed (bs : List Byte) (s : State) : (pushEffect bs s).Allowed s := by
  refine onlyIn_allowed .absorb s _ (fun hm => ?_)
  cases ha : admission bs.length s with
  | some c => trivial
  | none =>
    obtain ⟨hfits, hbelow⟩ := (admit_eq_none bs.length s).mp ha
    exact ⟨hm, hfits, hbelow⟩

theorem effectOf_allowed (i : Instr) (s : State) : (effectOf i s).Allowed s := by
  cases i with
  | nop | rdst | init => trivial
  | final => exact onlyIn_allowed .absorb s .finish id
  | push1 _ | push2 _ _ | push3 _ _ _ => exact pushEffect_allowed _ s
  | rdlen idx => rw [effectOf]; split <;> trivial
  | rdh idx =>
    rw [effectOf]
    split
    · exact onlyIn_allowed .done s _ (fun _ => trivial)
    · trivial
  | rdx idx => exact onlyIn_allowed .done s _ (fun _ => trivial)
  | loadw | expand _ | seed | round _ | fold => trivial

/-! ### A step between commands (R7, R41, R65) -/

theorem decodeZ_isCommand (c : BitVec 32) (i j : Instr) (hi : isCommand i = true) (h : decodeZ c i = .ok j) :
    isCommand j = true := by
  rw [decodeZ] at h
  split at h
  · rw [Except.ok.injEq] at h; exact h ▸ hi
  · simp at h

theorem decodeX_isCommand (c : BitVec 32) (bound : BitVec 4) (mk : BitVec 4 → Instr) (j : Instr)
    (hmk : ∀ x, isCommand (mk x) = true) (h : decodeX c bound mk = .ok j) : isCommand j = true := by
  simp only [decodeX] at h
  split_ifs at h
  rw [Except.ok.injEq] at h
  exact h ▸ hmk _

/-- A command word never decodes to a micro-operation (R60). -/
theorem decodeCommand_isCommand (c : BitVec 32) (i : Instr) (h : decodeCommand c = .ok i) : isCommand i = true := by
  rw [decodeCommand] at h
  split_ifs at h
  · exact decodeZ_isCommand c .nop i rfl h
  · exact decodeZ_isCommand c .init i rfl h
  · exact decodeZ_isCommand c .final i rfl h
  · cases h; rfl
  · cases h; rfl
  · cases h; rfl
  · exact decodeZ_isCommand c .rdst i rfl h
  · exact decodeX_isCommand c 1#4 .rdlen i (fun _ => rfl) h
  · exact decodeX_isCommand c 7#4 .rdh i (fun _ => rfl) h
  · exact decodeX_isCommand c 15#4 .rdx i (fun _ => rfl) h

/-- The effect of a command word, legal or not (R65, R161). -/
def wordEffect (c : BitVec 32) (s : State) : Effect :=
  match decodeCommand c with
  | .ok i => effectOf i s
  | .error _ => .fault .illegalCmd

theorem wordEffect_allowed (c : BitVec 32) (s : State) : (wordEffect c s).Allowed s := by
  rw [wordEffect]
  split
  · exact effectOf_allowed _ s
  · trivial

/-- The engine without the oldest thing the host did, which is being taken. -/
def taken (s : State) : State := { s with port := s.port.tail }

theorem step_reset_taken (s : State) (rest : List HostInput) (hp : s.port = .reset :: rest) :
    step s = .next (resetEvent (taken s)) := by
  rw [step_reset s rest hp, taken, hp, List.tail_cons]

theorem step_word (s : State) (c : BitVec 32) (rest : List HostInput) (h : s.Between) (hp : s.port = .word c :: rest) :
    step s = .next ((wordEffect c (taken s)).apply (taken s)) := by
  have ht : taken s = { s with port := rest } := by rw [taken, hp, List.tail_cons]
  rw [ht]
  cases hd : decodeCommand c with
  | ok i =>
    have hi := decodeCommand_isCommand c i hd
    have hs : ({ s with port := rest } : State).Between := ⟨h.upc, h.idleSequencer⟩
    rw [step_command s c i rest h.idleSequencer hp hd, exec_eq_apply i _ hi hs]
    simp only [wordEffect, hd]
  | error e =>
    rw [step_illegal s c e rest h.idleSequencer hp hd]
    simp only [wordEffect, hd]
    rfl

/-- Everything that a step from `s` to `t` can be when no compression is in progress. -/
inductive BetweenStep (s t : State) : Prop
  | wait (ht : t = s)
  | reset (ht : t = resetEvent (taken s))
  | word (e : Effect) (he : e.Allowed (taken s)) (ht : t = e.apply (taken s))

theorem between_step (s t : State) (hs : s.Between) (h : step s = .next t) : BetweenStep s t := by
  match hp : s.port with
  | [] =>
    rw [step_wait s hs.idleSequencer hp, Host.Outcome.next.injEq] at h
    exact .wait h.symm
  | .reset :: rest =>
    rw [step_reset_taken s rest hp, Host.Outcome.next.injEq] at h
    exact .reset h.symm
  | .word c :: rest =>
    rw [step_word s c rest hs hp, Host.Outcome.next.injEq] at h
    exact .word (wordEffect c (taken s)) (wordEffect_allowed c (taken s)) h.symm

end Sys2Proof.Proofs
end

section
/-! PROOFS, family 10_state, part 4: the control invariants I1 to I4 of R28. Each effect keeps them where it is allowed,
so every step does. -/

namespace Sys2Proof.Proofs

open Sys2Proof.Machine Sys2Proof.Laws

/-! ### What the message operations leave of the control state -/

@[simp] theorem absorbed_BLK (b : Byte) (s : State) : (absorbed b s).BLK = s.BLK.write s.pos b := by
  rw [absorbed]; split <;> rfl
@[simp] theorem absorbed_LEN (b : Byte) (s : State) : (absorbed b s).LEN = s.LEN + 1#64 := by
  rw [absorbed]; split <;> rfl
@[simp] theorem absorbed_MODE (b : Byte) (s : State) : (absorbed b s).MODE = s.MODE := by rw [absorbed]; split <;> rfl
@[simp] theorem absorbed_ERRCODE (b : Byte) (s : State) : (absorbed b s).ERRCODE = s.ERRCODE := by
  rw [absorbed]; split <;> rfl
@[simp] theorem absorbed_cfg (b : Byte) (s : State) : (absorbed b s).cfg = s.cfg := by rw [absorbed]; split <;> rfl
@[simp] theorem absorbed_port (b : Byte) (s : State) : (absorbed b s).port = s.port := by rw [absorbed]; split <;> rfl
@[simp] theorem absorbed_out (b : Byte) (s : State) : (absorbed b s).out = s.out := by rw [absorbed]; split <;> rfl

@[simp] theorem padded_LEN (s : State) : (padded s).LEN = s.LEN := by rw [padded]; split <;> rfl
@[simp] theorem padded_ERRCODE (s : State) : (padded s).ERRCODE = s.ERRCODE := by rw [padded]; split <;> rfl
@[simp] theorem padded_cfg (s : State) : (padded s).cfg = s.cfg := by rw [padded]; split <;> rfl
@[simp] theorem padded_port (s : State) : (padded s).port = s.port := by rw [padded]; split <;> rfl
@[simp] theorem padded_out (s : State) : (padded s).out = s.out := by rw [padded]; split <;> rfl

@[simp] theorem finished_LEN (s : State) : (finished s).LEN = s.LEN := padded_LEN s
@[simp] theorem finished_MODE (s : State) : (finished s).MODE = .done := rfl
@[simp] theorem finished_ERRCODE (s : State) : (finished s).ERRCODE = s.ERRCODE := padded_ERRCODE s
@[simp] theorem finished_cfg (s : State) : (finished s).cfg = s.cfg := padded_cfg s
@[simp] theorem finished_port (s : State) : (finished s).port = s.port := padded_port s
@[simp] theorem finished_out (s : State) : (finished s).out = s.out := padded_out s

theorem finished_between (s : State) : (finished s).Between := ⟨rfl, rfl⟩

theorem terminated_wf (n : Nat) (s : State) (hn : n ≤ 64) (h : s.BLK.wf = true) : (terminated n s).BLK.wf = true := by
  have hp := pos_lt s
  exact wf_writeBytes _ _ _ (wf_write _ _ _ h hp) (by rw [List.length_replicate]; omega)

theorem padded_wf (s : State) (h : s.BLK.wf = true) : (padded s).BLK.wf = true := by
  rw [padded]
  split
  · rw [setBlkBytes_BLK]
    exact wf_writeBytes _ _ _ (terminated_wf 64 s le_rfl h) (by rw [List.length_replicate]; decide)
  · exact terminated_wf 56 s (by decide) h

theorem be64_length (v : BitVec 64) : (be64 v).length = 8 := by simp [be64]

theorem finished_wf (s : State) (h : s.BLK.wf = true) : (finished s).BLK.wf = true :=
  wf_writeBytes _ _ _ (padded_wf s h) (by rw [be64_length])

/-! ### Admission, byte by byte (R102) -/

theorem paddedLen_mono {l l' : Nat} (h : l ≤ l') : paddedLen l ≤ paddedLen l' :=
  Nat.mul_le_mul_left 64 (Nat.div_le_div_right (by omega))

theorem admits_mono {n k : Nat} {s : State} (h : s.Admits n) (hk : k ≤ n) : s.Admits k where
  fits cap hcap := le_trans (paddedLen_mono (by omega)) (h.fits cap hcap)
  below := by have := h.below; omega

/-- The byte counter does not overflow on an admitted byte. -/
theorem len_succ {s : State} (h : s.Admits 1) : (s.LEN + 1#64).toNat = s.LEN.toNat + 1 := by
  have := h.below
  rw [BitVec.toNat_add, Nat.mod_eq_of_lt (by simp; omega)]
  rfl

theorem absorbed_admits {n : Nat} {s : State} (b : Byte) (h : s.Admits (n + 1)) : (absorbed b s).Admits n := by
  have hlen : (absorbed b s).LEN.toNat = s.LEN.toNat + 1 := by
    rw [absorbed_LEN, len_succ (admits_mono h (by omega))]
  have hsum : (absorbed b s).LEN.toNat + n = s.LEN.toNat + (n + 1) := by omega
  exact ⟨fun cap hcap => hsum ▸ h.fits cap (absorbed_cfg b s ▸ hcap), hsum ▸ h.below⟩

/-! ### Each effect keeps the invariants -/

/-- The invariants say nothing of the datapath but the form of `BLK`, and nothing of the port and the responses. -/
theorem inv_of_frame {s t : State} (h : s.Inv)
    (ht : t = { s with H := t.H, vars := t.vars, W := t.W, port := t.port, out := t.out }) : t.Inv := by
  rw [ht]
  exact ⟨⟨h.between.upc, h.between.idleSequencer⟩, h.errIff, h.errBound, h.lenBound, h.lenFits, h.idleLen, h.blkForm,
    h.cfgDomain⟩

theorem taken_inv {s : State} (h : s.Inv) : (taken s).Inv := inv_of_frame h rfl

theorem respond_inv {s : State} (f : Bool) (d : Word) (h : s.Inv) : (s.respond f d).Inv := inv_of_frame h rfl

theorem code_bounds (c : Cause) : c.code ≠ 0#4 ∧ c.code ≤ 4#4 := by cases c <;> decide

theorem raise_inv {s : State} (c : Cause) (h : s.Inv) : (raise c s).Inv where
  between := ⟨by rw [raise_UPC, h.between.upc], by rw [raise_compressing, h.between.idleSequencer]⟩
  errIff := by
    rw [raise_ERRCODE, raise_MODE]
    split
    · next hm => simp [h.errIff, hm]
    · simp [code_bounds c]
  errBound := by
    rw [raise_ERRCODE]
    split
    · exact h.errBound
    · exact (code_bounds c).2
  lenBound := by rw [raise_LEN]; exact h.lenBound
  lenFits := by simp
  idleLen := by simp
  blkForm := by rw [raise_BLK]; exact h.blkForm
  cfgDomain := by rw [raise_cfg]; exact h.cfgDomain

/-- Every capacity holds the padding of the empty message (R5). -/
theorem paddedLen_zero_le {c : Config} (h : c.wf = true) (cap : Nat) (hcap : c.padcap = some cap) :
    paddedLen 0 ≤ cap := by
  simp only [Config.wf, hcap, Bool.and_eq_true, decide_eq_true_eq] at h
  exact h.1.2

theorem openMessage_inv {s : State} (h : s.Inv) : (openMessage s).Inv where
  between := ⟨h.between.upc, h.between.idleSequencer⟩
  errIff := by simp
  errBound := by simp
  lenBound := by simp
  lenFits := fun _ => paddedLen_zero_le h.cfgDomain
  idleLen := by simp
  blkForm := h.blkForm
  cfgDomain := h.cfgDomain

theorem absorbed_inv {s : State} (b : Byte) (h : s.Inv) (hm : s.MODE = .absorb) (ha : s.Admits 1) :
    (absorbed b s).Inv where
  between := absorbed_between h.between
  errIff := by simpa using h.errIff
  errBound := by simpa using h.errBound
  lenBound := by rw [absorbed_LEN, len_succ ha]; exact ha.below
  lenFits _ cap hcap := by
    rw [absorbed_LEN, len_succ ha]
    exact ha.fits cap (absorbed_cfg b s ▸ hcap)
  idleLen := by simp [hm]
  blkForm := by rw [absorbed_BLK]; exact wf_write _ _ _ h.blkForm (pos_lt s)
  cfgDomain := by rw [absorbed_cfg]; exact h.cfgDomain

/-- What every absorbed byte of an admitted push keeps holds after all of them. -/
theorem absorbedAll_induction {P : State → Prop} (bs : List Byte) (s : State) (hs : P s) (ha : s.Admits bs.length)
    (hP : ∀ u b, P u → u.Admits 1 → P (absorbed b u)) : P (absorbedAll bs s) := by
  induction bs generalizing s with
  | nil => exact hs
  | cons b rest ih =>
    exact ih _ (hP s b hs (admits_mono ha (by simp))) (absorbed_admits b ha)

theorem absorbedAll_inv {s : State} (bs : List Byte) (h : s.Inv) (hm : s.MODE = .absorb) (ha : s.Admits bs.length) :
    (absorbedAll bs s).Inv := by
  have hall : (absorbedAll bs s).Inv ∧ (absorbedAll bs s).MODE = .absorb := by
    refine absorbedAll_induction (P := fun u => u.Inv ∧ u.MODE = .absorb) bs s ⟨h, hm⟩ ha ?_
    rintro u b ⟨hu, hmu⟩ ha1
    exact ⟨absorbed_inv b hu hmu ha1, (absorbed_MODE b u).trans hmu⟩
  exact hall.1

theorem finished_inv {s : State} (h : s.Inv) (hm : s.MODE = .absorb) : (finished s).Inv where
  between := finished_between s
  errIff := by simpa [hm] using h.errIff
  errBound := by simpa using h.errBound
  lenBound := by simpa using h.lenBound
  lenFits _ := by simpa using h.lenFits (.inl hm)
  idleLen := by simp
  blkForm := finished_wf s h.blkForm
  cfgDomain := by simpa using h.cfgDomain

theorem apply_inv {s : State} (e : Effect) (h : s.Inv) (he : e.Allowed s) : (e.apply s).Inv := by
  cases e with
  | answer d => exact respond_inv false d h
  | fault c => exact raise_inv c h
  | start => exact respond_inv _ _ (openMessage_inv h)
  | push bs => exact respond_inv _ _ (absorbedAll_inv bs h he.1 he.2)
  | finish => exact respond_inv _ _ (finished_inv h he)

theorem resetEvent_wf (s : State) : (resetEvent s).BLK.wf = true := by
  simp only [resetEvent]
  exact wf_writeBytes [] 0 _ wf_nil (by rw [List.length_map, List.length_range])

theorem resetEvent_inv {s : State} (h : s.Inv) : (resetEvent s).Inv where
  between := ⟨rfl, rfl⟩
  errIff := by simp
  errBound := by simp
  lenBound := by simp
  lenFits := by simp
  idleLen := fun _ => rfl
  blkForm := resetEvent_wf s
  cfgDomain := h.cfgDomain

/-- Settles O50: waiting, reset and every allowed effect keep the invariants. -/
theorem stepKeepsInvariant : Obligations.StepKeepsInvariant := by
  intro s t h hstep
  cases between_step s t h.between hstep with
  | wait ht => exact ht ▸ h
  | reset ht => exact ht ▸ resetEvent_inv (taken_inv h)
  | word e he ht => exact ht ▸ apply_inv e (taken_inv h) he

end Sys2Proof.Proofs
end

section
/-! PROOFS, family 10_state, part 5: the block that a message operation compresses, and `H` after it. `absorbed_H` and
`finished_H` say it in the terms of the statements, `filledBlock` and `terminatedBlock` (R103, R107). -/

namespace Sys2Proof.Proofs

open Sys2Proof.Machine Sys2Proof.Laws

/-! ### An absorbed byte -/

theorem withByte_pos (b : Byte) (s : State) : (withByte b s).pos = (s.pos + 1) % 64 := by
  have h : (s.LEN + 1#64).toNat = (s.LEN.toNat + 1) % 2 ^ 64 := BitVec.toNat_add ..
  simp only [withByte, State.pos, h]
  omega

theorem absorbed_pos (b : Byte) (s : State) : (absorbed b s).pos = (s.pos + 1) % 64 := by
  rw [← withByte_pos b s, pos_congr _ (withByte b s) (absorbed_LEN b s)]

/-- The byte at the last place completes the block of R103. -/
theorem block_withByte (b : Byte) (s : State) (hw : s.BLK.wf = true) (hp : s.pos = 63) :
    (withByte b s).BLK.block = filledBlock s [b] := by
  ext1 i hi
  rw [block_get]
  simp only [withByte, setBlk_BLK, read_write _ _ _ _ hw, filledBlock, Vector.getElem_ofFn]
  by_cases h : i < s.pos
  · rw [if_neg (by omega), if_pos h]
  · have hi : i = s.pos := by omega
    simp [hi]

/-- `H` after an absorbed byte: compressed when the byte completes the block. -/
theorem absorbed_H (b : Byte) (s : State) (hw : s.BLK.wf = true) :
    (absorbed b s).H = if s.pos = 63 then compressBlock s.H (filledBlock s [b]) else s.H := by
  have hp := pos_lt s
  rw [absorbed, withByte_pos]
  by_cases h : s.pos = 63
  · rw [if_pos (by omega), if_pos h, compressed_H, block_withByte b s hw h]
    rfl
  · rw [if_neg (by omega), if_neg h]
    rfl

/-! ### The last blocks of a message -/

/-- The first 56 bytes of a block, then the length field (R101). -/
def withLength (b : Vector Byte 64) (v : BitVec 64) : Vector Byte 64 :=
  Vector.ofFn (fun i => if i.val < 56 then b[i] else be64Byte v (i.val - 56))

theorem read_terminated (n : Nat) (s : State) (hw : s.BLK.wf = true) (hn : n ≤ 64) (hp : s.pos < n) (q : Nat)
    (hq : q < n) :
    (terminated n s).BLK.read q = if q < s.pos then s.BLK.read q else if q = s.pos then 0x80#8 else 0x00#8 := by
  rw [terminated, setBlkBytes_BLK, setBlk_BLK, read_writeBytes _ _ _ _ (wf_write _ _ _ hw (pos_lt s))
    (by rw [List.length_replicate]; omega), read_write _ _ _ _ hw, List.length_replicate]
  by_cases h1 : q < s.pos
  · rw [if_neg (by omega), if_neg (by omega), if_pos h1]
  · by_cases h2 : q = s.pos
    · rw [if_neg (by omega), if_pos h2, if_neg h1, if_pos h2]
    · rw [if_pos (by omega), if_neg h1, if_neg h2]
      simp

theorem terminatedBlock_getElem (s : State) (q : Nat) (hq : q < 64) : (terminatedBlock s)[q] =
    if q < s.pos then s.BLK.read q else if q = s.pos then 0x80#8 else 0x00#8 := by
  rw [terminatedBlock, Vector.getElem_ofFn]

theorem read_terminated_eq_terminatedBlock (n : Nat) (s : State) (hw : s.BLK.wf = true) (hn : n ≤ 64) (hp : s.pos < n)
    (q : Nat) (hq : q < n) : (terminated n s).BLK.read q = (terminatedBlock s)[q] := by
  rw [read_terminated n s hw hn hp q hq, terminatedBlock_getElem]

theorem be64_getD (v : BitVec 64) (j : Nat) (h : j < 8) : (be64 v).getD j 0#8 = be64Byte v j := by
  simp [be64, h]

/-- The length field written over the last eight cells. -/
theorem block_writeLength (m : Memory) (b : Vector Byte 64) (v : BitVec 64) (hw : m.wf = true)
    (hb : ∀ (q : Nat) (hq : q < 56), m.read q = b[q]) : (m.writeBytes 56 (be64 v)).block = withLength b v := by
  ext1 i hi
  rw [block_get, read_writeBytes _ _ _ _ hw (by rw [be64_length]), be64_length, withLength, Vector.getElem_ofFn]
  by_cases h : i < 56
  · rw [if_neg (by omega), if_pos h]
    exact hb i h
  · rw [if_pos (by omega), if_neg h, be64_getD v _ (by omega)]

/-- `H` after `FINAL`: the terminator and the length in one block where they fit, else in two (R107). -/
theorem finished_H (s : State) (hw : s.BLK.wf = true) :
    (finished s).H =
      if s.pos < 56 then compressBlock s.H (withLength (terminatedBlock s) s.bitLength)
      else compressBlock (compressBlock s.H (terminatedBlock s))
        (withLength (Vector.replicate 64 0x00#8) s.bitLength) := by
  have hblock (b : Vector Byte 64) (hb : ∀ (q : Nat) (hq : q < 56), (padded s).BLK.read q = b[q]) :
      (finished s).H = compressBlock (padded s).H (withLength b s.bitLength) := by
    rw [← block_writeLength _ b _ (padded_wf s hw) hb]
    rfl
  split
  · next hp =>
    have hpad : padded s = terminated 56 s := if_neg (by omega)
    rw [hblock (terminatedBlock s) (fun q hq => ?_), hpad]
    · rfl
    · rw [hpad, read_terminated_eq_terminatedBlock 56 s hw (by decide) hp q hq]
  · next hp =>
    have hpad : padded s = (compressed (terminated 64 s)).setBlkBytes 0 (List.replicate 56 0x00#8) := if_pos (by omega)
    have hfirst : (terminated 64 s).BLK.block = terminatedBlock s := by
      ext1 i hi
      rw [block_get, read_terminated_eq_terminatedBlock 64 s hw le_rfl (pos_lt s) i hi]
    rw [hblock (Vector.replicate 64 0x00#8) (fun q hq => ?_), hpad, setBlkBytes_H, compressed_H, hfirst]
    · rfl
    · rw [hpad, setBlkBytes_BLK, compressed_BLK, read_writeBytes _ _ _ _ (terminated_wf 64 s le_rfl hw)
        (by rw [List.length_replicate]; decide), if_pos (by rw [List.length_replicate]; omega),
        List.getD_replicate _ (by omega), Vector.getElem_replicate]

end Sys2Proof.Proofs
end

section
/-! PROOFS, family 10_state, part 6: the message invariants I5 and I6 of R28. First the blocks of a byte sequence and of
its padding (R101), then that each absorbed byte and `FINAL` keep `H` the hash of the message. -/

namespace Sys2Proof.Proofs

open Sys2Proof.Machine Sys2Proof.Laws

/-! ### Blocks of a byte sequence -/

/-- A complete block stays when bytes are added. -/
theorem blockOf_append (m l : List Byte) (k : Nat) (h : 64 * (k + 1) ≤ m.length) :
    blockOf (m ++ l) k = blockOf m k := by
  ext1 i hi
  rw [blockOf, blockOf, Vector.getElem_ofFn, Vector.getElem_ofFn, List.getD_append _ _ _ _ (by simp only; omega)]

theorem hashBlocks_append (m l : List Byte) (n : Nat) (h : 64 * n ≤ m.length) :
    hashBlocks (m ++ l) n = hashBlocks m n := by
  induction n with
  | zero => rfl
  | succ k ih => rw [hashBlocks, hashBlocks, ih (by omega), blockOf_append m l k h]

/-! ### The padded message (R101) -/

/-- What `Pad` puts after the message. -/
theorem pad_eq_append (m : List Byte) : ∃ l, pad m = m ++ l :=
  ⟨_, by rw [pad, List.append_assoc, List.append_assoc]⟩

theorem pad_getD (m : List Byte) (j : Nat) (hj : j < paddedLen m.length) :
    (pad m).getD j 0#8 =
      if j < m.length then m.getD j 0#8 else if j = m.length then 0x80#8 else
      if j < paddedLen m.length - 8 then 0x00#8
      else be64Byte (BitVec.ofNat 64 (8 * m.length)) (j - (paddedLen m.length - 8)) := by
  have hzeros : (m ++ [0x80#8] ++ List.replicate (paddedLen m.length - m.length - 9) 0x00#8).length =
      paddedLen m.length - 8 := by
    simp only [List.length_append, List.length_replicate, List.length_singleton, paddedLen]
    omega
  have hone : (m ++ [0x80#8]).length = m.length + 1 := by simp
  have hlen : m.length + 9 ≤ paddedLen m.length := by rw [paddedLen]; omega
  rw [pad]
  by_cases h1 : j < m.length
  · rw [List.append_assoc, List.append_assoc, List.getD_append _ _ _ _ h1, if_pos h1]
  · rw [if_neg h1]
    by_cases h2 : j = m.length
    · rw [if_pos h2, h2, List.getD_append _ _ _ _ (by omega), List.getD_append _ _ _ _ (by omega)]
      simp
    · rw [if_neg h2]
      by_cases h3 : j < paddedLen m.length - 8
      · rw [if_pos h3, List.getD_append _ _ _ _ (by omega), List.getD_append_right _ _ _ _ (by omega), hone,
          List.getD_replicate _ (by omega)]
      · rw [if_neg h3, List.getD_append_right _ _ _ _ (by omega), hzeros, be64_getD _ _ (by omega)]

theorem blockOf_getElem (bs : List Byte) (k i : Nat) (hi : i < 64) :
    (blockOf bs k)[i] = bs.getD (64 * k + i) 0#8 := by
  rw [blockOf, Vector.getElem_ofFn]

/-! ### Absorbing keeps I5 -/

theorem pos_of_hasAbsorbed {m : List Byte} {s : State} (h : s.HasAbsorbed m) : s.pos = m.length % 64 := by
  rw [State.pos, h.len]

/-- The bytes of the block so far are message bytes. -/
theorem filledBlock_of_hasAbsorbed {m : List Byte} {s : State} (h : s.HasAbsorbed m) (b : Byte) (hp : s.pos = 63) :
    filledBlock s [b] = blockOf (m ++ [b]) (m.length / 64) := by
  have hpos := pos_of_hasAbsorbed h
  ext1 i hi
  rw [blockOf_getElem, filledBlock, Vector.getElem_ofFn]
  by_cases hlt : i < s.pos
  · rw [if_pos hlt, h.tail i hlt, List.getD_append _ _ _ _ (by omega)]
  · rw [if_neg hlt, List.getD_append_right _ _ _ _ (by omega)]
    congr 1
    omega

theorem absorbed_hasAbsorbed {m : List Byte} {s : State} (h : s.HasAbsorbed m) (b : Byte) (hw : s.BLK.wf = true)
    (ha : s.Admits 1) : (absorbed b s).HasAbsorbed (m ++ [b]) where
  len := by rw [absorbed_LEN, len_succ ha, h.len, List.length_append, List.length_singleton]
  tail p hp := by
    have hpos := pos_of_hasAbsorbed h
    have hnew := absorbed_pos b s
    rw [absorbed_BLK, read_write _ _ _ _ hw, List.length_append, List.length_singleton,
      show (m.length + 1) / 64 = m.length / 64 by omega]
    by_cases hps : p = s.pos
    · rw [if_pos hps, List.getD_append_right _ _ _ _ (by omega), show 64 * (m.length / 64) + p - m.length = 0 by omega]
      rfl
    · rw [if_neg hps, h.tail p (by omega), List.getD_append _ _ _ _ (by omega)]
  hash := by
    have hpos := pos_of_hasAbsorbed h
    rw [absorbed_H b s hw, List.length_append, List.length_singleton]
    split
    · next hp =>
      rw [show (m.length + 1) / 64 = m.length / 64 + 1 by omega, hashBlocks, hashBlocks_append m [b] _ (by omega),
        h.hash, filledBlock_of_hasAbsorbed h b hp]
    · next hp =>
      have := pos_lt s
      rw [show (m.length + 1) / 64 = m.length / 64 by omega, hashBlocks_append m [b] _ (by omega), h.hash]

/-! ### `FINAL` gives I6 -/

theorem bitLength_of_hasAbsorbed {m : List Byte} {s : State} (h : s.HasAbsorbed m) :
    s.bitLength = BitVec.ofNat 64 (8 * m.length) := by
  apply BitVec.eq_of_toNat_eq
  rw [State.bitLength, BitVec.toNat_shiftLeft, h.len, BitVec.toNat_ofNat, Nat.shiftLeft_eq, Nat.mul_comm]

/-- Up to the length field the terminated block is the block of the padded message that the open bytes begin. -/
theorem terminatedBlock_of_hasAbsorbed {m : List Byte} {s : State} (h : s.HasAbsorbed m) (i : Nat) (hi : i < 64)
    (hlen : 64 * (m.length / 64) + i < paddedLen m.length - 8) :
    (terminatedBlock s)[i] = (pad m).getD (64 * (m.length / 64) + i) 0#8 := by
  have hpos := pos_of_hasAbsorbed h
  rw [pad_getD m _ (by omega), terminatedBlock_getElem]
  by_cases h1 : i < s.pos
  · rw [if_pos h1, h.tail i h1, if_pos (by omega)]
  · rw [if_neg h1]
    by_cases h2 : i = s.pos
    · rw [if_pos h2, if_neg (by omega), if_pos (by omega)]
    · rw [if_neg h2, if_neg (by omega), if_neg (by omega), if_pos hlen]

/-- A block with the length field is the last block of the padded message when its other bytes are those. -/
theorem withLength_eq_blockOf_pad (m : List Byte) (b : Vector Byte 64) (k : Nat)
    (hk : 64 * (k + 1) = paddedLen m.length) (hb : ∀ (i : Nat) (hi : i < 56), b[i] = (pad m).getD (64 * k + i) 0#8) :
    withLength b (BitVec.ofNat 64 (8 * m.length)) = blockOf (pad m) k := by
  have hlen : m.length + 9 ≤ paddedLen m.length := by rw [paddedLen]; omega
  ext1 i hi
  rw [blockOf_getElem, withLength, Vector.getElem_ofFn]
  by_cases h : i < 56
  · rw [if_pos h]
    exact hb i h
  · rw [if_neg h, pad_getD m _ (by omega), if_neg (by omega), if_neg (by omega), if_neg (by omega),
      show 64 * k + i - (paddedLen m.length - 8) = i - 56 by omega]

/-- `H` after `FINAL` is the digest of the message absorbed (R108). -/
theorem finished_H_of_hasAbsorbed {m : List Byte} {s : State} (h : s.HasAbsorbed m) (hw : s.BLK.wf = true) :
    (finished s).H = digestWords m := by
  have hpos := pos_of_hasAbsorbed h
  obtain ⟨l, hl⟩ := pad_eq_append m
  have hprefix : s.H = hashBlocks (pad m) (m.length / 64) := by
    rw [hl, hashBlocks_append m l _ (by omega), h.hash]
  rw [finished_H s hw, bitLength_of_hasAbsorbed h, digestWords]
  split
  · next hp =>
    have hpad : paddedLen m.length = 64 * (m.length / 64 + 1) := by rw [paddedLen]; omega
    rw [show paddedLen m.length / 64 = m.length / 64 + 1 by omega, hashBlocks, ← hprefix]
    rw [withLength_eq_blockOf_pad m _ (m.length / 64) hpad.symm
      (fun i hi => terminatedBlock_of_hasAbsorbed h i (by omega) (by omega))]
  · next hp =>
    have hpad : paddedLen m.length = 64 * (m.length / 64 + 2) := by rw [paddedLen]; omega
    have hfirst : terminatedBlock s = blockOf (pad m) (m.length / 64) := by
      ext1 i hi
      rw [terminatedBlock_of_hasAbsorbed h i hi (by omega), blockOf_getElem]
    rw [show paddedLen m.length / 64 = m.length / 64 + 1 + 1 by omega, hashBlocks, hashBlocks, ← hprefix, hfirst,
      withLength_eq_blockOf_pad m _ (m.length / 64 + 1) hpad.symm (fun i hi => ?_)]
    rw [Vector.getElem_replicate, pad_getD m _ (by omega), if_neg (by omega), if_neg (by omega), if_pos (by omega)]

/-! ### Each effect keeps the message invariants -/

theorem absorbedAll_hasAbsorbed {s : State} (bs : List Byte) (h : ∃ m, s.HasAbsorbed m) (hw : s.BLK.wf = true)
    (ha : s.Admits bs.length) : ∃ m, (absorbedAll bs s).HasAbsorbed m := by
  have hall : (∃ m, (absorbedAll bs s).HasAbsorbed m) ∧ (absorbedAll bs s).BLK.wf = true := by
    refine absorbedAll_induction (P := fun u => (∃ m, u.HasAbsorbed m) ∧ u.BLK.wf = true) bs s ⟨h, hw⟩ ha ?_
    rintro u b ⟨⟨m, hm⟩, hwu⟩ ha1
    exact ⟨⟨m ++ [b], absorbed_hasAbsorbed hm b hwu ha1⟩, absorbed_BLK b u ▸ wf_write _ _ _ hwu (pos_lt u)⟩
  exact hall.1

theorem absorbedAll_MODE (bs : List Byte) (s : State) : (absorbedAll bs s).MODE = s.MODE := by
  induction bs generalizing s with
  | nil => rfl
  | cons b rest ih => exact (ih _).trans (absorbed_MODE b s)

/-- The message invariants say nothing of the port and the responses. -/
theorem messageInv_of_frame {s t : State} (h : s.MessageInv) (ht : t = { s with port := t.port, out := t.out }) :
    t.MessageInv := by
  rw [ht]
  exact ⟨fun hm => (h.absorbing hm).imp fun m hs => ⟨hs.len, hs.tail, hs.hash⟩,
    fun hm => (h.finished hm).imp fun m hs => ⟨hs.len, hs.hash⟩⟩

theorem respond_messageInv {s : State} (f : Bool) (d : Word) (h : s.MessageInv) : (s.respond f d).MessageInv :=
  messageInv_of_frame h rfl

theorem openMessage_hasAbsorbed (s : State) : (openMessage s).HasAbsorbed [] where
  len := rfl
  tail p hp := absurd hp (Nat.not_lt_zero p)
  hash := rfl

theorem messageInv_of_absorb {s : State} (hm : s.MODE = .absorb) (h : ∃ m, s.HasAbsorbed m) : s.MessageInv :=
  ⟨fun _ => h, fun hd => by simp [hm] at hd⟩

theorem messageInv_of_done {s : State} (hm : s.MODE = .done) (h : ∃ m, s.HasDigest m) : s.MessageInv :=
  ⟨fun ha => by simp [hm] at ha, fun _ => h⟩

theorem messageInv_of_closed {s : State} (ha : s.MODE ≠ .absorb) (hd : s.MODE ≠ .done) : s.MessageInv :=
  ⟨fun h => absurd h ha, fun h => absurd h hd⟩

theorem finished_messageInv {s : State} (h : ∃ m, s.HasAbsorbed m) (hw : s.BLK.wf = true) :
    (finished s).MessageInv := by
  obtain ⟨m, hm⟩ := h
  exact messageInv_of_done rfl
    ⟨m, (congrArg BitVec.toNat (finished_LEN s)).trans hm.len, finished_H_of_hasAbsorbed hm hw⟩

theorem apply_messageInv {s : State} (e : Effect) (hs : s.Inv) (h : s.MessageInv) (he : e.Allowed s) :
    (e.apply s).MessageInv := by
  cases e with
  | answer d => exact respond_messageInv false d h
  | fault c => exact messageInv_of_closed (by simp [Effect.apply]) (by simp [Effect.apply])
  | start => exact respond_messageInv _ _ (messageInv_of_absorb rfl ⟨[], openMessage_hasAbsorbed s⟩)
  | push bs =>
    obtain ⟨hm, ha⟩ := he
    exact respond_messageInv _ _ (messageInv_of_absorb ((absorbedAll_MODE bs s).trans hm)
      (absorbedAll_hasAbsorbed bs (h.absorbing hm) hs.blkForm ha))
  | finish => exact respond_messageInv _ _ (finished_messageInv (h.absorbing he) hs.blkForm)

/-- Settles O51: waiting changes nothing, after reset no message is open, and every allowed effect keeps `H` the hash of
the message. -/
theorem stepKeepsMessageInvariant : Obligations.StepKeepsMessageInvariant := by
  intro s t hs h hstep
  cases between_step s t hs.between hstep with
  | wait ht => exact ht ▸ h
  | reset ht => exact ht ▸ messageInv_of_closed (by simp) (by simp)
  | word e he ht => exact ht ▸ apply_messageInv e (taken_inv hs) (messageInv_of_frame h rfl) he

end Sys2Proof.Proofs
end

section
/-! PROOFS, family 10_state, part 7: no response depends on hidden state (R27, R29, R52). Two engines with the same
observations see the same effect in every command word, and an effect takes them to such engines again. -/

namespace Sys2Proof.Proofs

open Sys2Proof.Machine Sys2Proof.Laws

section
variable {s t : State} (h : SameObservable s t)
include h

theorem pos_of_same : s.pos = t.pos := pos_congr s t h.len

theorem status_of_same : s.status = t.status := status_congr s t h.len h.errcode h.mode

/-! ### The effect is the same -/

theorem admission_of_same (n : Nat) : admission n s = admission n t := by
  rw [admission, admission, h.cfg, h.len]

theorem onlyIn_of_same (m : Mode) (e e' : Effect) (he : s.MODE = m → e = e') : onlyIn m s e = onlyIn m t e' := by
  rw [onlyIn, onlyIn, ← h.mode]
  split
  · next hm => exact he hm
  · rfl

theorem pushEffect_of_same (bs : List Byte) : pushEffect bs s = pushEffect bs t :=
  onlyIn_of_same h .absorb _ _ (fun _ => by rw [admission_of_same h])

theorem effectOf_of_same (i : Instr) : effectOf i s = effectOf i t := by
  cases i with
  | nop | rdst => exact congrArg Effect.answer (status_of_same h)
  | final => exact onlyIn_of_same h .absorb _ _ (fun _ => rfl)
  | push1 _ | push2 _ _ | push3 _ _ _ => exact pushEffect_of_same h _
  | rdlen idx => rw [effectOf, effectOf, h.len]
  | rdh idx =>
    rw [effectOf, effectOf, onlyIn_of_same h .done _ _ (fun hm => ?_)]
    rw [State.hAt, State.hAt, h.hash (.inr hm)]
  | rdx idx => exact onlyIn_of_same h .done _ _ (fun hm => by rw [h.hash (.inr hm)])
  | init | loadw | expand _ | seed | round _ | fold => rfl

theorem wordEffect_of_same (c : BitVec 32) : wordEffect c s = wordEffect c t := by
  rw [wordEffect, wordEffect]
  split
  · exact effectOf_of_same h _
  · rfl

/-! ### The effect keeps what is observable the same -/

theorem taken_same : SameObservable (taken s) (taken t) where
  betweenLeft := ⟨h.betweenLeft.upc, h.betweenLeft.idleSequencer⟩
  betweenRight := ⟨h.betweenRight.upc, h.betweenRight.idleSequencer⟩
  formLeft := h.formLeft
  formRight := h.formRight
  cfg := h.cfg
  port := congrArg List.tail h.port
  out := h.out
  mode := h.mode
  errcode := h.errcode
  len := h.len
  hash := h.hash
  blk := h.blk

theorem respond_same (f : Bool) (d : Word) : SameObservable (s.respond f d) (t.respond f d) where
  betweenLeft := ⟨h.betweenLeft.upc, h.betweenLeft.idleSequencer⟩
  betweenRight := ⟨h.betweenRight.upc, h.betweenRight.idleSequencer⟩
  formLeft := h.formLeft
  formRight := h.formRight
  cfg := h.cfg
  port := h.port
  out := congrArg (· ++ _) h.out
  mode := h.mode
  errcode := h.errcode
  len := h.len
  hash := h.hash
  blk := h.blk

theorem respondStatus_same : SameObservable s.respondStatus t.respondStatus := by
  rw [State.respondStatus, State.respondStatus, ← status_of_same h]
  exact respond_same h false _

theorem raise_same (c : Cause) : SameObservable (raise c s) (raise c t) where
  betweenLeft := ⟨by rw [raise_UPC, h.betweenLeft.upc], by rw [raise_compressing, h.betweenLeft.idleSequencer]⟩
  betweenRight := ⟨by rw [raise_UPC, h.betweenRight.upc], by rw [raise_compressing, h.betweenRight.idleSequencer]⟩
  formLeft := by rw [raise_BLK, h.formLeft]
  formRight := by rw [raise_BLK, h.formRight]
  cfg := by rw [raise_cfg, raise_cfg, h.cfg]
  port := by rw [raise_port, raise_port, h.port]
  out := by rw [raise_out, raise_out, h.out]
  mode := by rw [raise_MODE, raise_MODE]
  errcode := by rw [raise_ERRCODE, raise_ERRCODE, h.mode, h.errcode]
  len := by rw [raise_LEN, raise_LEN, h.len]
  hash := by simp
  blk := by simp

theorem openMessage_same : SameObservable (openMessage s) (openMessage t) where
  betweenLeft := ⟨h.betweenLeft.upc, h.betweenLeft.idleSequencer⟩
  betweenRight := ⟨h.betweenRight.upc, h.betweenRight.idleSequencer⟩
  formLeft := h.formLeft
  formRight := h.formRight
  cfg := h.cfg
  port := h.port
  out := h.out
  mode := rfl
  errcode := rfl
  len := rfl
  hash _ := rfl
  blk _ p hp := absurd hp (Nat.not_lt_zero p)

theorem filledBlock_of_same (hm : s.MODE = .absorb) (bs : List Byte) : filledBlock s bs = filledBlock t bs := by
  ext1 i hi
  simp only [filledBlock, Vector.getElem_ofFn, ← pos_of_same h]
  split
  · next hp => exact h.blk hm i hp
  · rfl

theorem terminatedBlock_of_same (hm : s.MODE = .absorb) : terminatedBlock s = terminatedBlock t := by
  ext1 i hi
  rw [terminatedBlock_getElem, terminatedBlock_getElem, ← pos_of_same h]
  split
  · next hp => exact h.blk hm i hp
  · rfl

theorem absorbed_same (hm : s.MODE = .absorb) (b : Byte) : SameObservable (absorbed b s) (absorbed b t) where
  betweenLeft := absorbed_between h.betweenLeft
  betweenRight := absorbed_between h.betweenRight
  formLeft := by rw [absorbed_BLK]; exact wf_write _ _ _ h.formLeft (pos_lt s)
  formRight := by rw [absorbed_BLK]; exact wf_write _ _ _ h.formRight (pos_lt t)
  cfg := by rw [absorbed_cfg, absorbed_cfg, h.cfg]
  port := by rw [absorbed_port, absorbed_port, h.port]
  out := by rw [absorbed_out, absorbed_out, h.out]
  mode := by rw [absorbed_MODE, absorbed_MODE, h.mode]
  errcode := by rw [absorbed_ERRCODE, absorbed_ERRCODE, h.errcode]
  len := by rw [absorbed_LEN, absorbed_LEN, h.len]
  hash _ := by
    rw [absorbed_H b s h.formLeft, absorbed_H b t h.formRight, ← pos_of_same h, h.hash (.inl hm),
      filledBlock_of_same h hm]
  blk _ p hp := by
    have hnew := absorbed_pos b s
    rw [absorbed_BLK, absorbed_BLK, read_write _ _ _ _ h.formLeft, read_write _ _ _ _ h.formRight, ← pos_of_same h]
    split
    · rfl
    · exact h.blk hm p (by omega)

theorem finished_same (hm : s.MODE = .absorb) : SameObservable (finished s) (finished t) where
  betweenLeft := finished_between s
  betweenRight := finished_between t
  formLeft := finished_wf s h.formLeft
  formRight := finished_wf t h.formRight
  cfg := by rw [finished_cfg, finished_cfg, h.cfg]
  port := by rw [finished_port, finished_port, h.port]
  out := by rw [finished_out, finished_out, h.out]
  mode := rfl
  errcode := by rw [finished_ERRCODE, finished_ERRCODE, h.errcode]
  len := by rw [finished_LEN, finished_LEN, h.len]
  hash _ := by
    rw [finished_H s h.formLeft, finished_H t h.formRight, ← pos_of_same h, terminatedBlock_of_same h hm,
      h.hash (.inl hm), State.bitLength, State.bitLength, h.len]
  blk := by simp

theorem resetEvent_same : SameObservable (resetEvent s) (resetEvent t) where
  betweenLeft := ⟨rfl, rfl⟩
  betweenRight := ⟨rfl, rfl⟩
  formLeft := resetEvent_wf s
  formRight := resetEvent_wf t
  cfg := h.cfg
  port := h.port
  out := h.out
  mode := rfl
  errcode := rfl
  len := rfl
  hash := by simp
  blk := by simp

end

theorem absorbedAll_same {s t : State} (h : SameObservable s t) (hm : s.MODE = .absorb) (bs : List Byte) :
    SameObservable (absorbedAll bs s) (absorbedAll bs t) := by
  induction bs generalizing s t with
  | nil => exact h
  | cons b rest ih => exact ih (absorbed_same h hm b) ((absorbed_MODE b s).trans hm)

theorem apply_same {s t : State} (h : SameObservable s t) (e : Effect) (he : e.Allowed s) :
    SameObservable (e.apply s) (e.apply t) := by
  cases e with
  | answer d => exact respond_same h false d
  | fault c => exact raise_same h c
  | start => exact respondStatus_same (openMessage_same h)
  | push bs => exact respondStatus_same (absorbedAll_same h he.1 bs)
  | finish => exact respondStatus_same (finished_same h he)

/-- Settles O52: the port is the same, so both engines wait, both are reset, or both take the same word, with the same
effect. -/
theorem hiddenStateIsNeverObserved : Obligations.HiddenStateIsNeverObserved := by
  intro s t s' h hstep
  match hp : s.port with
  | [] =>
    rw [step_wait s h.betweenLeft.idleSequencer hp, Host.Outcome.next.injEq] at hstep
    exact ⟨t, step_wait t h.betweenRight.idleSequencer (h.port ▸ hp), hstep ▸ h⟩
  | .reset :: rest =>
    rw [step_reset_taken s rest hp, Host.Outcome.next.injEq] at hstep
    exact ⟨_, step_reset_taken t rest (h.port ▸ hp), hstep ▸ resetEvent_same (taken_same h)⟩
  | .word c :: rest =>
    rw [step_word s c rest h.betweenLeft hp, Host.Outcome.next.injEq] at hstep
    refine ⟨_, step_word t c rest h.betweenRight (h.port ▸ hp), ?_⟩
    rw [← hstep, ← wordEffect_of_same (taken_same h)]
    exact apply_same (taken_same h) _ (wordEffect_allowed c _)

end Sys2Proof.Proofs
end

section
/-! PROOFS, family 30_encoding, part 1: the decoder and the encoder (R61 to R69). First the formats: a word is put
together from fields exactly when they are its fields. From this decoding and encoding are inverse, and the table of masks
and matches and the words of format U follow. -/

namespace Sys2Proof.Proofs

open Sys2Proof.Machine Sys2Proof.Laws

/-! ### The fields of a word (R61, R68) -/

/-- Two fields make a word exactly when they are its high and its low bits. -/
theorem append_eq_iff {n m : Nat} (x : BitVec n) (y : BitVec m) (c : BitVec (n + m)) :
    x ++ y = c ↔ c.extractLsb' m n = x ∧ c.extractLsb' 0 m = y := by
  constructor
  · rintro rfl
    exact ⟨BitVec.extractLsb'_append_eq_left, BitVec.extractLsb'_append_eq_right⟩
  · rintro ⟨rfl, rfl⟩
    rw [BitVec.extractLsb'_append_extractLsb'_eq_extractLsb' (Nat.zero_add m).symm, BitVec.extractLsb'_eq_self]

/-- A field of a field is a field of the word. -/
theorem extractLsb'_extractLsb' {w : Nat} (c : BitVec w) (i j l l' : Nat) (h : i + l ≤ l') :
    (c.extractLsb' j l').extractLsb' i l = c.extractLsb' (j + i) l := by
  ext k hk
  simp only [BitVec.getElem_extractLsb', BitVec.getLsbD_extractLsb', Nat.add_assoc]
  simp [show i + k < l' by omega]

theorem append_append_eq_iff {n m k : Nat} (x : BitVec n) (y : BitVec m) (z : BitVec k) (c : BitVec (n + m + k)) :
    x ++ y ++ z = c ↔
      c.extractLsb' (k + m) n = x ∧ c.extractLsb' k m = y ∧ c.extractLsb' 0 k = z := by
  rw [append_eq_iff, eq_comm (b := x ++ y), append_eq_iff, extractLsb'_extractLsb' _ _ _ _ _ (by omega),
    extractLsb'_extractLsb' _ _ _ _ _ (by omega), and_assoc]
  rfl

section
variable (c : BitVec 32) (op b0 b1 : Byte)

theorem formatZ_iff (r : BitVec 24) : op ++ r = c ↔ opcodeOf c = op ∧ c.extractLsb' 0 24 = r :=
  append_eq_iff op r c

/-- The format of `PUSH1`. -/
theorem format1_iff (r : BitVec 16) :
    op ++ b0 ++ r = c ↔ opcodeOf c = op ∧ c.extractLsb' 16 8 = b0 ∧ c.extractLsb' 0 16 = r :=
  append_append_eq_iff op b0 r c

/-- The format of `PUSH2`, and of `PUSH3`, whose last byte is no reserved field. -/
theorem format2_iff (r : Byte) : op ++ b0 ++ b1 ++ r = c ↔
    opcodeOf c = op ∧ c.extractLsb' 16 8 = b0 ∧ c.extractLsb' 8 8 = b1 ∧ c.extractLsb' 0 8 = r := by
  rw [append_eq_iff, eq_comm (b := op ++ b0 ++ b1), append_append_eq_iff, extractLsb'_extractLsb' _ _ _ _ _ (by decide),
    extractLsb'_extractLsb' _ _ _ _ _ (by decide), extractLsb'_extractLsb' _ _ _ _ _ (by decide), and_assoc, and_assoc]
  rfl

theorem formatX_iff (r : BitVec 20) (x : BitVec 4) :
    op ++ r ++ x = c ↔ opcodeOf c = op ∧ c.extractLsb' 4 20 = r ∧ c.extractLsb' 0 4 = x :=
  append_append_eq_iff op r x c

end

theorem formatU_iff (u : BitVec 9) (uop : BitVec 3) (t : BitVec 6) :
    uop ++ t = u ↔ u.extractLsb' 6 3 = uop ∧ u.extractLsb' 0 6 = t :=
  append_eq_iff uop t u

/-! ### Decoding an encoding (R66, R68) -/

/-- The decoder reads the fields that the encoder wrote: a command. -/
theorem decodeCommand_of_encode {i : Instr} {c : BitVec 32} (hi : i.wf = true) (h : encode i = .command c) :
    decodeCommand c = .ok i := by
  cases i with
  | nop | init | final | rdst =>
    obtain ⟨hop, hr⟩ := (formatZ_iff c _ _).mp (CodeWord.command.inj h)
    simp [decodeCommand, decodeZ, hop, hr]
  | push1 b0 =>
    obtain ⟨hop, h0, hr⟩ := (format1_iff c _ _ _).mp (CodeWord.command.inj h)
    simp [decodeCommand, hop, h0, hr]
  | push2 b0 b1 =>
    obtain ⟨hop, h0, h1, hr⟩ := (format2_iff c _ _ _ _).mp (CodeWord.command.inj h)
    simp [decodeCommand, hop, h0, h1, hr]
  | push3 b0 b1 b2 =>
    obtain ⟨hop, h0, h1, h2⟩ := (format2_iff c _ _ _ _).mp (CodeWord.command.inj h)
    simp [decodeCommand, hop, h0, h1, h2]
  | rdlen idx | rdh idx =>
    obtain ⟨hop, hr, hx⟩ := (formatX_iff c _ _ _).mp (CodeWord.command.inj h)
    simp [decodeCommand, decodeX, hop, hr, hx, of_decide_eq_true hi]
  | rdx idx =>
    obtain ⟨hop, hr, hx⟩ := (formatX_iff c _ _ _).mp (CodeWord.command.inj h)
    have hle : idx ≤ 15#4 := BitVec.le_def.mpr (Nat.le_of_lt_succ idx.isLt)
    simp [decodeCommand, decodeX, hop, hr, hx, hle]
  | loadw | expand _ | seed | round _ | fold => simp [encode] at h

/-- The decoder reads the fields that the encoder wrote: a micro-operation. -/
theorem decodeMicroOp_of_encode {i : Instr} {u : BitVec 9} (hi : i.wf = true) (h : encode i = .microOp u) :
    decodeMicroOp u = .ok i := by
  cases i with
  | loadw | seed | fold | round t =>
    obtain ⟨hop, ht⟩ := (formatU_iff u _ _).mp (CodeWord.microOp.inj h)
    simp [decodeMicroOp, hop, ht]
  | expand t =>
    obtain ⟨hop, ht⟩ := (formatU_iff u _ _).mp (CodeWord.microOp.inj h)
    simp [decodeMicroOp, hop, ht, of_decide_eq_true hi]
  | nop | init | final | push1 _ | push2 _ _ | push3 _ _ _ | rdst | rdlen _ | rdh _ | rdx _ => simp [encode] at h

/-- Settles O1: the decoder of the word's kind gives the instruction back. -/
theorem decodeOfEncodeIsIdentity : Obligations.DecodeOfEncodeIsIdentity := by
  intro i hi
  match h : encode i with
  | .command c => exact decodeCommand_of_encode hi h
  | .microOp u => exact decodeMicroOp_of_encode hi h

/-! ### Encoding what was decoded (R66, R68) -/

theorem decodeZ_eq_ok_iff (c : BitVec 32) (i j : Instr) :
    decodeZ c i = .ok j ↔ c.extractLsb' 0 24 = 0#24 ∧ i = j := by
  rw [decodeZ]
  split <;> simp [*]

theorem decodeX_eq_ok_iff (c : BitVec 32) (bound : BitVec 4) (mk : BitVec 4 → Instr) (j : Instr) :
    decodeX c bound mk = .ok j ↔
      c.extractLsb' 4 20 = 0#20 ∧ c.extractLsb' 0 4 ≤ bound ∧ mk (c.extractLsb' 0 4) = j := by
  rw [decodeX]
  split_ifs <;> simp [*]

/-- A command word of format Z is the encoding of what it decodes to. -/
theorem encode_of_decodeZ {c : BitVec 32} {op : Byte} {i j : Instr} (hi : i.wf = true)
    (he : encode i = .command (op ++ 0#24)) (hop : opcodeOf c = op) (h : decodeZ c i = .ok j) :
    j.wf = true ∧ encode j = .command c := by
  obtain ⟨hr, rfl⟩ := (decodeZ_eq_ok_iff c i j).mp h
  exact ⟨hi, he.trans (congrArg CodeWord.command ((formatZ_iff c op _).mpr ⟨hop, hr⟩))⟩

/-- A command word of format X is the encoding of what it decodes to. -/
theorem encode_of_decodeX {c : BitVec 32} {op : Byte} {bound : BitVec 4} {mk : BitVec 4 → Instr} {j : Instr}
    (hwf : ∀ x, x ≤ bound → (mk x).wf = true) (he : ∀ x, encode (mk x) = .command (op ++ 0#20 ++ x))
    (hop : opcodeOf c = op) (h : decodeX c bound mk = .ok j) : j.wf = true ∧ encode j = .command c := by
  obtain ⟨hr, hx, rfl⟩ := (decodeX_eq_ok_iff c bound mk j).mp h
  exact ⟨hwf _ hx, (he _).trans (congrArg CodeWord.command ((formatX_iff c op _ _).mpr ⟨hop, hr, rfl⟩))⟩

theorem encode_of_decodeCommand {i : Instr} {c : BitVec 32} (h : decodeCommand c = .ok i) :
    i.wf = true ∧ encode i = .command c := by
  rw [decodeCommand] at h
  split_ifs at h
  · exact encode_of_decodeZ (i := .nop) rfl rfl ‹_› h
  · exact encode_of_decodeZ (i := .init) rfl rfl ‹_› h
  · exact encode_of_decodeZ (i := .final) rfl rfl ‹_› h
  · cases h
    exact ⟨rfl, congrArg CodeWord.command ((format1_iff c _ _ _).mpr ⟨‹_›, rfl, ‹_›⟩)⟩
  · cases h
    exact ⟨rfl, congrArg CodeWord.command ((format2_iff c _ _ _ _).mpr ⟨‹_›, rfl, rfl, ‹_›⟩)⟩
  · cases h
    exact ⟨rfl, congrArg CodeWord.command ((format2_iff c _ _ _ _).mpr ⟨‹_›, rfl, rfl, rfl⟩)⟩
  · exact encode_of_decodeZ (i := .rdst) rfl rfl ‹_› h
  · exact encode_of_decodeX (mk := .rdlen) (fun _ => decide_eq_true) (fun _ => rfl) ‹_› h
  · exact encode_of_decodeX (mk := .rdh) (fun _ => decide_eq_true) (fun _ => rfl) ‹_› h
  · exact encode_of_decodeX (mk := .rdx) (fun _ _ => rfl) (fun _ => rfl) ‹_› h

theorem encode_of_decodeMicroOp {i : Instr} {u : BitVec 9} (h : decodeMicroOp u = .ok i) :
    i.wf = true ∧ encode i = .microOp u := by
  have hword (uop : BitVec 3) (t : BitVec 6) (hop : u.extractLsb' 6 3 = uop) (ht : u.extractLsb' 0 6 = t) :
      CodeWord.microOp (uop ++ t) = .microOp u := congrArg CodeWord.microOp ((formatU_iff u uop t).mpr ⟨hop, ht⟩)
  simp only [decodeMicroOp] at h
  split_ifs at h <;> cases h
  · exact ⟨rfl, hword 0#3 0#6 ‹_› ‹_›⟩
  · exact ⟨decide_eq_true ‹_›, hword 1#3 _ ‹_› rfl⟩
  · exact ⟨rfl, hword 2#3 0#6 ‹_› ‹_›⟩
  · exact ⟨rfl, hword 3#3 _ ‹_› rfl⟩
  · exact ⟨rfl, hword 4#3 0#6 ‹_› ‹_›⟩

/-- Settles O2: the fields that the decoder read, put together again, are the word. -/
theorem encodeOfDecodeIsIdentity : Obligations.EncodeOfDecodeIsIdentity := by
  intro w i h
  cases w with
  | command c => exact encode_of_decodeCommand h
  | microOp u => exact encode_of_decodeMicroOp h

theorem decodeCommand_eq_ok_iff (c : BitVec 32) (i : Instr) :
    decodeCommand c = .ok i ↔ i.wf = true ∧ encode i = .command c :=
  ⟨encode_of_decodeCommand, fun ⟨hi, h⟩ => decodeCommand_of_encode hi h⟩

theorem decodeMicroOp_eq_ok_iff (u : BitVec 9) (i : Instr) :
    decodeMicroOp u = .ok i ↔ i.wf = true ∧ encode i = .microOp u :=
  ⟨encode_of_decodeMicroOp, fun ⟨hi, h⟩ => decodeMicroOp_of_encode hi h⟩

/-! ### The table of masks and matches (R64, R65) -/

theorem append_inj_iff {n m : Nat} (x x' : BitVec n) (y y' : BitVec m) : x ++ y = x' ++ y' ↔ x = x' ∧ y = y' := by
  rw [append_eq_iff, BitVec.extractLsb'_append_eq_left, BitVec.extractLsb'_append_eq_right, eq_comm, eq_comm (a := y')]

section
variable (c : BitVec 32) (op : Byte)

/-- A row of format Z: every bit is fixed. -/
theorem formatZ_row {i : Instr} (hi : i.wf = true) (he : encode i = .command (op ++ 0#24)) :
    decodeCommand c = .ok i ↔ c &&& BitVec.allOnes 32 = op ++ 0#24 := by
  rw [decodeCommand_eq_ok_iff, he, CodeWord.command.injEq, BitVec.and_allOnes, eq_comm (b := c)]
  exact and_iff_right hi

/-- A row of format X: `m` are the index bits that no index up to the bound has. -/
theorem formatX_row (m idx : BitVec 4) {mk : BitVec 4 → Instr}
    (hwf : ∀ x : BitVec 4, (mk x).wf = true ↔ x &&& m = 0#4) (he : ∀ x, encode (mk x) = .command (op ++ 0#20 ++ x)) :
    decodeCommand c = .ok (mk idx) ↔
      c &&& (BitVec.allOnes 8 ++ BitVec.allOnes 20 ++ m) = op ++ 0#20 ++ 0#4 ∧ idx = c.extractLsb' 0 4 := by
  have hmask : c &&& (BitVec.allOnes 8 ++ BitVec.allOnes 20 ++ m) =
      opcodeOf c ++ c.extractLsb' 4 20 ++ (c.extractLsb' 0 4 &&& m) := by
    conv_lhs => rw [← (formatX_iff c _ _ _).mpr ⟨rfl, rfl, rfl⟩]
    rw [BitVec.and_append, BitVec.and_append, BitVec.and_allOnes, BitVec.and_allOnes]
  rw [decodeCommand_eq_ok_iff, hwf, he, CodeWord.command.injEq, formatX_iff, hmask, append_inj_iff, append_inj_iff]
  constructor
  · rintro ⟨hm, hop, hr, rfl⟩
    exact ⟨⟨⟨hop, hr⟩, hm⟩, rfl⟩
  · rintro ⟨⟨⟨hop, hr⟩, hm⟩, rfl⟩
    exact ⟨hm, hop, hr, rfl⟩

theorem push1_row (b0 : Byte) : decodeCommand c = .ok (.push1 b0) ↔
    c &&& (BitVec.allOnes 8 ++ 0#8 ++ BitVec.allOnes 16) = 0x11#8 ++ 0#8 ++ 0#16 ∧ b0 = c.extractLsb' 16 8 := by
  have hmask : c &&& (BitVec.allOnes 8 ++ 0#8 ++ BitVec.allOnes 16) = opcodeOf c ++ 0#8 ++ c.extractLsb' 0 16 := by
    conv_lhs => rw [← (format1_iff c _ _ _).mpr ⟨rfl, rfl, rfl⟩]
    rw [BitVec.and_append, BitVec.and_append, BitVec.and_allOnes, BitVec.and_allOnes, BitVec.and_zero]
  rw [decodeCommand_eq_ok_iff, encode, CodeWord.command.injEq, format1_iff, hmask, append_inj_iff, append_inj_iff]
  constructor
  · rintro ⟨-, hop, rfl, hr⟩
    exact ⟨⟨⟨hop, rfl⟩, hr⟩, rfl⟩
  · rintro ⟨⟨⟨hop, -⟩, hr⟩, rfl⟩
    exact ⟨rfl, hop, rfl, hr⟩

theorem push2_row (b0 b1 : Byte) : decodeCommand c = .ok (.push2 b0 b1) ↔
    c &&& (BitVec.allOnes 8 ++ 0#8 ++ 0#8 ++ BitVec.allOnes 8) = 0x12#8 ++ 0#8 ++ 0#8 ++ 0#8 ∧
      b0 = c.extractLsb' 16 8 ∧ b1 = c.extractLsb' 8 8 := by
  have hmask : c &&& (BitVec.allOnes 8 ++ 0#8 ++ 0#8 ++ BitVec.allOnes 8) =
      opcodeOf c ++ 0#8 ++ 0#8 ++ c.extractLsb' 0 8 := by
    conv_lhs => rw [← (format2_iff c _ _ _ _).mpr ⟨rfl, rfl, rfl, rfl⟩]
    rw [BitVec.and_append, BitVec.and_append, BitVec.and_append, BitVec.and_allOnes, BitVec.and_allOnes,
      BitVec.and_zero, BitVec.and_zero]
  rw [decodeCommand_eq_ok_iff, encode, CodeWord.command.injEq, format2_iff, hmask, append_inj_iff, append_inj_iff,
    append_inj_iff]
  constructor
  · rintro ⟨-, hop, rfl, rfl, hr⟩
    exact ⟨⟨⟨⟨hop, rfl⟩, rfl⟩, hr⟩, rfl, rfl⟩
  · rintro ⟨⟨⟨⟨hop, -⟩, -⟩, hr⟩, rfl, rfl⟩
    exact ⟨rfl, hop, rfl, rfl, hr⟩

theorem push3_row (b0 b1 b2 : Byte) : decodeCommand c = .ok (.push3 b0 b1 b2) ↔
    c &&& (BitVec.allOnes 8 ++ 0#24) = 0x13#8 ++ 0#24 ∧
      b0 = c.extractLsb' 16 8 ∧ b1 = c.extractLsb' 8 8 ∧ b2 = c.extractLsb' 0 8 := by
  have hmask : c &&& (BitVec.allOnes 8 ++ 0#24) = opcodeOf c ++ 0#24 := by
    conv_lhs => rw [← (formatZ_iff c _ _).mpr ⟨rfl, rfl⟩]
    rw [BitVec.and_append, BitVec.and_allOnes, BitVec.and_zero]
  rw [decodeCommand_eq_ok_iff, encode, CodeWord.command.injEq, format2_iff, hmask, append_inj_iff]
  constructor
  · rintro ⟨-, hop, rfl, rfl, rfl⟩
    exact ⟨⟨hop, rfl⟩, rfl, rfl, rfl⟩
  · rintro ⟨⟨hop, -⟩, rfl, rfl, rfl⟩
    exact ⟨rfl, hop, rfl, rfl, rfl⟩

end

/-- A word is illegal exactly when it decodes to none of the ten commands. -/
theorem decodeCommand_error_iff (c : BitVec 32) : (∃ r, decodeCommand c = .error r) ↔
    ∀ i, isCommand i = true → decodeCommand c ≠ .ok i := by
  cases h : decodeCommand c with
  | error r => simp
  | ok i => simpa using decodeCommand_isCommand c i h

/-- Settles O3: one row for each command; a word is illegal when it is in no row. -/
theorem commandWordsByMaskAndMatch : Obligations.CommandWordsByMaskAndMatch := by
  intro c
  have hnop := formatZ_row c 0x00#8 (i := .nop) rfl rfl
  have hinit := formatZ_row c 0x01#8 (i := .init) rfl rfl
  have hfinal := formatZ_row c 0x02#8 (i := .final) rfl rfl
  have hpush1 := push1_row c
  have hpush2 := push2_row c
  have hpush3 := push3_row c
  have hrdst := formatZ_row c 0x20#8 (i := .rdst) rfl rfl
  have hrdlen idx := formatX_row c 0x21#8 0xE#4 idx (mk := .rdlen) (by decide) (fun _ => rfl)
  have hrdh idx := formatX_row c 0x22#8 0x8#4 idx (mk := .rdh) (by decide) (fun _ => rfl)
  have hrdx idx := formatX_row c 0x23#8 0x0#4 idx (mk := .rdx) (by decide) (fun _ => rfl)
  refine ⟨hnop, hinit, hfinal, hpush1, hpush2, hpush3, hrdst, hrdlen, hrdh, hrdx, ?_⟩
  rw [decodeCommand_error_iff]
  constructor
  · intro h
    exact ⟨fun hc => h _ rfl (hnop.mpr hc), fun hc => h _ rfl (hinit.mpr hc), fun hc => h _ rfl (hfinal.mpr hc),
      fun hc => h _ rfl ((hpush1 _).mpr ⟨hc, rfl⟩), fun hc => h _ rfl ((hpush2 _ _).mpr ⟨hc, rfl, rfl⟩),
      fun hc => h _ rfl ((hpush3 _ _ _).mpr ⟨hc, rfl, rfl, rfl⟩), fun hc => h _ rfl (hrdst.mpr hc),
      fun hc => h _ rfl ((hrdlen _).mpr ⟨hc, rfl⟩), fun hc => h _ rfl ((hrdh _).mpr ⟨hc, rfl⟩),
      fun hc => h _ rfl ((hrdx _).mpr ⟨hc, rfl⟩)⟩
  · rintro ⟨h0, h1, h2, h3, h4, h5, h6, h7, h8, h9⟩ i hi hd
    cases i with
    | nop => exact h0 (hnop.mp hd)
    | init => exact h1 (hinit.mp hd)
    | final => exact h2 (hfinal.mp hd)
    | push1 _ => exact h3 ((hpush1 _).mp hd).1
    | push2 _ _ => exact h4 ((hpush2 _ _).mp hd).1
    | push3 _ _ _ => exact h5 ((hpush3 _ _ _).mp hd).1
    | rdst => exact h6 (hrdst.mp hd)
    | rdlen _ => exact h7 ((hrdlen _).mp hd).1
    | rdh _ => exact h8 ((hrdh _).mp hd).1
    | rdx _ => exact h9 ((hrdx _).mp hd).1
    | loadw | expand _ | seed | round _ | fold => simp [isCommand] at hi

/-! ### The words of format U (R68) and the micro-program (R69) -/

/-- Settles O4: each micro-operation is read from its encoding only. -/
theorem microOperationWordsAreFormatU : Obligations.MicroOperationWordsAreFormatU := by
  intro u i
  have hexpand (t : BitVec 6) : 0x040#9 + t.setWidth 9 = 1#3 ++ t := by revert t; decide
  have hround (t : BitVec 6) : 0x0C0#9 + t.setWidth 9 = 3#3 ++ t := by revert t; decide
  rw [decodeMicroOp_eq_ok_iff, eq_comm (b := CodeWord.microOp u)]
  cases i with
  | loadw | seed | fold => simp [Instr.wf, encode]
  | expand t => simp [Instr.wf, encode, hexpand]
  | round t => simp [Instr.wf, encode, hround]
  | nop | init | final | push1 _ | push2 _ _ | push3 _ _ _ | rdst | rdlen _ | rdh _ | rdx _ => simp [encode]

/-- Settles O5: the words of the ROM one by one, and the micro-operations of R69 at their places. -/
theorem microProgramContents : Obligations.MicroProgramContents :=
  ⟨by decide, by decide, by decide, by decide, by decide, by decide, microOpAt_zero, by decide, microOpAt_seed, by decide,
    microOpAt_fold⟩

/-- Settles O18: the check of `EXPAND` on its operand fails. -/
theorem expandBelowSixteenIsRefused : Obligations.ExpandBelowSixteenIsRefused := fun t s ht =>
  if_neg (by simpa using ht : ¬16#6 ≤ t)

end Sys2Proof.Proofs
end

section
/-! PROOFS, family 30_encoding, part 2: the word that is next and its response. `withFetchWord` places a word where the
step takes it (R60, R69); every effect gives one response (R65, R67). -/

namespace Sys2Proof.Proofs

open Sys2Proof.Machine Sys2Proof.Laws

/-! ### The place of a micro-operation in `UROM` (R69) -/

theorem encode_microOp (i : Instr) (u : BitVec 9) (h : encode i = .microOp u) : isCommand i = false := by
  cases i with
  | loadw | expand _ | seed | round _ | fold => rfl
  | nop | init | final | push1 _ | push2 _ _ | push3 _ _ _ | rdst | rdlen _ | rdh _ | rdx _ => simp [encode] at h

theorem decodeMicroOp_isCommand (u : BitVec 9) (i : Instr) (h : decodeMicroOp u = .ok i) : isCommand i = false :=
  encode_microOp i u (encode_of_decodeMicroOp h).2

/-- What the sequencer reads at a place is the decoded word of that place. -/
theorem uromAt_of_microOpAt (p : BitVec 7) (i : Instr) (h : microOpAt p = some i) :
    ∃ u, uromAt p = some u ∧ decodeMicroOp u = .ok i := by
  simp only [microOpAt] at h
  split at h
  · simp at h
  · next u hu =>
    split at h <;> simp at h
    next hd => exact ⟨u, hu, h ▸ hd⟩

/-- Every micro-operation has a place in the micro-program. -/
theorem exists_microOpAt (i : Instr) (hwf : i.wf = true) (hi : isCommand i = false) : ∃ p, microOpAt p = some i := by
  obtain ⟨-, -, -, -, -, -, hloadw, hexpand, hseed, hround, hfold⟩ := microProgramContents
  cases i with
  | loadw => exact ⟨_, hloadw⟩
  | expand t => exact ⟨_, hexpand t (of_decide_eq_true hwf)⟩
  | seed => exact ⟨_, hseed⟩
  | round t => exact ⟨_, hround t⟩
  | fold => exact ⟨_, hfold⟩
  | nop | init | final | push1 _ | push2 _ _ | push3 _ _ _ | rdst | rdlen _ | rdh _ | rdx _ => simp [isCommand] at hi

/-- Every word that decodes to a micro-operation stands in `UROM`. -/
theorem exists_uromAt (u : BitVec 9) (i : Instr) (h : decodeMicroOp u = .ok i) : ∃ p, uromAt p = some u := by
  obtain ⟨hwf, he⟩ := encode_of_decodeMicroOp h
  obtain ⟨p, hp⟩ := exists_microOpAt i hwf (encode_microOp i u he)
  obtain ⟨v, hv, hd⟩ := uromAt_of_microOpAt p i hp
  have hvu : v = u := CodeWord.microOp.inj ((encode_of_decodeMicroOp hd).2.symm.trans he)
  exact ⟨p, hvu ▸ hv⟩

/-- The search for a word that `UROM` holds ends at a place that holds it. -/
theorem uromAt_fetchAddress (u : BitVec 9) (p : BitVec 7) (h : uromAt p = some u) : uromAt (fetchAddress u) = some u := by
  have hlt : p.toNat < 115 := by
    by_contra hge
    obtain ⟨-, -, -, -, -, hnone, -⟩ := microProgramContents
    simp [hnone p (BitVec.le_def.mpr (by simpa using hge))] at h
  have hfound : (uromAddress u).isSome = true := by
    rw [uromAddress, List.find?_isSome]
    exact ⟨p, List.mem_map.mpr ⟨p.toNat, List.mem_range.mpr hlt, by simp⟩, by simp [h]⟩
  obtain ⟨q, hq⟩ := Option.isSome_iff_exists.mp hfound
  have hu : uromAt q = some u := by simpa using List.find?_some hq
  rwa [fetchAddress, hq, Option.getD_some]

theorem microOpAt_fetchAddress (u : BitVec 9) (i : Instr) (h : decodeMicroOp u = .ok i) :
    microOpAt (fetchAddress u) = some i := by
  obtain ⟨p, hp⟩ := exists_uromAt u i h
  exact microOpAt_of_decode _ u i (uromAt_fetchAddress u p hp) h

/-! ### The step after a word is placed -/

theorem step_withCodeWord_command (s : State) (c : BitVec 32) (i : Instr) (h : decodeCommand c = .ok i) :
    step (withCodeWord s (.command c)) = exec i { s with compressing := false } :=
  step_command (withCodeWord s (.command c)) c i s.port rfl rfl h

/-- A micro-operation is placed behind the resets that the host has asserted. -/
theorem withCodeWord_microOp_noResetNext (s : State) (u : BitVec 9) : NoResetNext (withCodeWord s (.microOp u)) := by
  intro rest hp
  have hhead := List.head?_dropWhile_not (fun x => x == HostInput.reset) s.port
  rw [show s.port.dropWhile (fun x => x == HostInput.reset) = .reset :: rest from hp] at hhead
  simp at hhead

theorem step_withCodeWord_microOp (s : State) (u : BitVec 9) (i : Instr) (h : decodeMicroOp u = .ok i) :
    step (withCodeWord s (.microOp u)) = exec i (withCodeWord s (.microOp u)) :=
  step_microOp _ i rfl (withCodeWord_microOp_noResetNext s u) (microOpAt_fetchAddress u i h)

theorem decodeTableWord_eq_some (nbits w : Nat) (i : Instr) (h : decodeTableWord nbits w = some i) :
    ∃ cw, tableCodeWord nbits w = some cw ∧ decode cw = .ok i := by
  simp only [decodeTableWord] at h
  split at h
  · simp at h
  · next cw hcw =>
    split at h <;> simp at h
    next hd => exact ⟨cw, hcw, h ▸ hd⟩

/-- Settles O49: the word is of one of the two kinds, and so is the instruction that the decoder reads from it. -/
theorem fetchWordIsRunNext : Obligations.FetchWordIsRunNext := by
  intro s nbits w i h
  obtain ⟨cw, hcw, hd⟩ := decodeTableWord_eq_some nbits w i h
  have hs : s.withFetchWord nbits w = withCodeWord s cw := by rw [State.withFetchWord, hcw]
  rw [hs]
  cases cw with
  | command c =>
    have hi := decodeCommand_isCommand c i hd
    exact ⟨fun _ => step_withCodeWord_command s c i hd, fun hm => by simp [hi] at hm⟩
  | microOp u =>
    have hi := decodeMicroOp_isCommand u i hd
    exact ⟨fun hc => by simp [hi] at hc, fun _ => step_withCodeWord_microOp s u i hd⟩

/-! ### One response for each word (R65, R67) -/

theorem absorbedAll_between (bs : List Byte) {s : State} (h : s.Between) : (absorbedAll bs s).Between := by
  induction bs generalizing s with
  | nil => exact h
  | cons b rest ih => exact ih (absorbed_between h)

theorem absorbedAll_silent (bs : List Byte) {s : State} (h : s.Between) : Silent s (absorbedAll bs s) :=
  absorbAll_silent bs s _ (absorbAll_eq bs s h)


/-- The response of an effect. -/
def Effect.response (e : Effect) (s : State) : Response :=
  match e with
  | .answer d => ⟨false, d⟩
  | .fault c => ⟨true, c.code.setWidth 32⟩
  | .start => ⟨false, (openMessage s).status⟩
  | .push bs => ⟨false, (absorbedAll bs s).status⟩
  | .finish => ⟨false, (finished s).status⟩

theorem apply_out (e : Effect) {s : State} (h : s.Between) : (e.apply s).out = s.out ++ [e.response s] := by
  cases e with
  | answer d => rfl
  | fault c => exact raise_out s c
  | start => rfl
  | push bs => rw [Effect.apply, respondStatus_out, (absorbedAll_silent bs h).out]; rfl
  | finish => rw [Effect.apply, respondStatus_out, finished_out]; rfl

theorem apply_port (e : Effect) {s : State} (h : s.Between) : (e.apply s).port = s.port := by
  cases e with
  | answer _ | start => rfl
  | fault c => exact raise_port s c
  | push bs => exact (absorbedAll_silent bs h).port
  | finish => exact finished_port s

theorem apply_between (e : Effect) {s : State} (h : s.Between) : (e.apply s).Between := by
  cases e with
  | answer _ | start => exact ⟨h.upc, h.idleSequencer⟩
  | fault c => exact ⟨(raise_UPC s c).trans h.upc, (raise_compressing s c).trans h.idleSequencer⟩
  | push bs => exact ⟨(absorbedAll_between bs h).upc, (absorbedAll_between bs h).idleSequencer⟩
  | finish => exact ⟨rfl, rfl⟩

/-- The cause codes as response data (R160). -/
theorem code_values (c : Cause) : c.code.setWidth 32 = 1#32 ∨ c.code.setWidth 32 = 2#32 ∨ c.code.setWidth 32 = 3#32 ∨
    c.code.setWidth 32 = 4#32 := by cases c <;> decide

/-- A fault response carries one of the four causes (R165). -/
theorem response_cause (e : Effect) (s : State) (h : (e.response s).F = true) :
    (e.response s).D = 1#32 ∨ (e.response s).D = 2#32 ∨ (e.response s).D = 3#32 ∨ (e.response s).D = 4#32 := by
  cases e with
  | fault c => exact code_values c
  | answer _ | start | push _ | finish => simp [Effect.response] at h

/-- Settles O46: the step on a word is the effect of the word, and every effect answers once. -/
theorem everyWordGetsOneResponse : Obligations.EveryWordGetsOneResponse := by
  intro s c rest h hp
  have ht : (taken s).Between := ⟨h.upc, h.idleSequencer⟩
  refine ⟨_, _, step_word s c rest h hp, apply_out _ ht, ?_, apply_between _ ht, response_cause _ _⟩
  rw [apply_port _ ht, taken, hp, List.tail_cons]

end Sys2Proof.Proofs
end

section
/-! PROOFS, family 30_encoding, part 3: the command programs (R71). What `PUSHB` expands to; then `HASH`, run as one
message from `INIT` to `FINAL` and sixteen `RDX` (R108, R144, R196). -/

namespace Sys2Proof.Proofs

open Sys2Proof.Machine Sys2Proof.Laws

/-! ### `PUSHB` (R71) -/

theorem pushB_messageBytes (bs : List Byte) : (pushB bs).flatMap messageBytes = bs := by
  induction bs using pushB.induct with
  | case1 b0 b1 b2 rest ih => rw [pushB, List.flatMap_cons, ih]; rfl
  | case2 b0 b1 => rfl
  | case3 b0 => rfl
  | case4 => rfl

theorem pushB_length (bs : List Byte) : (pushB bs).length = (bs.length + 2) / 3 := by
  induction bs using pushB.induct with
  | case1 b0 b1 b2 rest ih => simp only [pushB, List.length_cons, ih]; omega
  | case2 b0 b1 => simp [pushB]
  | case3 b0 => simp [pushB]
  | case4 => rfl

theorem pushB_insideMessage (bs : List Byte) : ∀ i ∈ pushB bs, insideMessage i = true := by
  induction bs using pushB.induct with
  | case1 b0 b1 b2 rest ih => exact List.forall_mem_cons.mpr ⟨rfl, ih⟩
  | case2 b0 b1 => exact List.forall_mem_singleton.mpr rfl
  | case3 b0 => exact List.forall_mem_singleton.mpr rfl
  | case4 => exact List.forall_mem_nil _

/-- Each complete group of three bytes is a `PUSH3`. -/
theorem pushB_getElem? (bs : List Byte) (k : Nat) (hk : k < bs.length / 3) : (pushB bs)[k]? =
    some (.push3 (bs.getD (3 * k) 0#8) (bs.getD (3 * k + 1) 0#8) (bs.getD (3 * k + 2) 0#8)) := by
  induction bs using pushB.induct generalizing k with
  | case1 b0 b1 b2 rest ih =>
    cases k with
    | zero => rfl
    | succ k =>
      rw [pushB, List.getElem?_cons_succ, ih k (by simp only [List.length_cons] at hk; omega)]
      rfl
  | case2 b0 b1 => simp at hk
  | case3 b0 => simp at hk
  | case4 => simp at hk

/-- Settles O54: each clause by the recursion of the expansion, three bytes at a time. -/
theorem pushbCarriesItsBytes : Obligations.PushbCarriesItsBytes := fun bs =>
  ⟨pushB_messageBytes bs, pushB_length bs, pushB_insideMessage bs, pushB_getElem? bs⟩

/-! ### Command sequences without a fault (R53) -/

/-- `is`, run from `s`, ends in `t`, with the responses `rs`, one a command and none with the fault bit. -/
structure Succeeds (is : List Instr) (s t : State) (rs : List Response) : Prop where
  run : execAll is s = .next t
  out : t.out = s.out ++ rs
  count : rs.length = is.length
  faultless : ∀ r ∈ rs, r.F = false

theorem Succeeds.nil (s : State) : Succeeds [] s s [] := ⟨rfl, (List.append_nil _).symm, rfl, List.forall_mem_nil _⟩

theorem execAll_append (is js : List Instr) (s : State) :
    execAll (is ++ js) s = andThen (execAll is s) (execAll js) := by
  induction is generalizing s with
  | nil => rfl
  | cons i is ih =>
    rw [List.cons_append, execAll, execAll]
    cases exec i s with
    | next t => exact ih t
    | fault f => rfl
    | refused q => rfl

theorem Succeeds.append {is js : List Instr} {s t u : State} {rs qs : List Response} (h : Succeeds is s t rs)
    (h' : Succeeds js t u qs) : Succeeds (is ++ js) s u (rs ++ qs) where
  run := by rw [execAll_append, h.run, andThen_next, h'.run]
  out := by rw [h'.out, h.out, List.append_assoc]
  count := by rw [List.length_append, List.length_append, h.count, h'.count]
  faultless := List.forall_mem_append.mpr ⟨h.faultless, h'.faultless⟩

/-- A command between commands succeeds with its effect, when that is no fault. -/
theorem command_succeeds {i : Instr} {s : State} {e : Effect} (hi : isCommand i = true) (h : s.Between)
    (he : effectOf i s = e) (hf : (e.response s).F = false) : Succeeds [i] s (e.apply s) [e.response s] where
  run := by rw [execAll, exec_eq_apply i s hi h, he, andThen_next]; rfl
  out := apply_out e h
  count := rfl
  faultless := List.forall_mem_singleton.mpr hf

/-! ### A message, from `INIT` to `FINAL` (R108) -/

/-- A message is open and its bytes so far are `m`. -/
structure Absorbing (m : List Byte) (s : State) : Prop where
  between : s.Between
  blkForm : s.BLK.wf = true
  mode : s.MODE = .absorb
  errcode : s.ERRCODE = 0#4
  absorbed : s.HasAbsorbed m

theorem respond_absorbing {m : List Byte} {s : State} (f : Bool) (d : Word) (h : Absorbing m s) :
    Absorbing m (s.respond f d) :=
  ⟨⟨h.between.upc, h.between.idleSequencer⟩, h.blkForm, h.mode, h.errcode,
    ⟨h.absorbed.len, h.absorbed.tail, h.absorbed.hash⟩⟩

theorem openMessage_absorbing {s : State} (h : s.Between) (hw : s.BLK.wf = true) : Absorbing [] (openMessage s) :=
  ⟨⟨h.upc, h.idleSequencer⟩, hw, rfl, rfl, openMessage_hasAbsorbed s⟩

theorem openMessage_admits {s : State} (n : Nat) (hcap : ∀ cap, s.cfg.padcap = some cap → paddedLen n ≤ cap)
    (hlen : n < 2 ^ 61) : (openMessage s).Admits n where
  fits := by rwa [openMessage_LEN, BitVec.toNat_zero, Nat.zero_add]
  below := by rwa [openMessage_LEN, BitVec.toNat_zero, Nat.zero_add]

theorem absorbed_absorbing {m : List Byte} {s : State} (b : Byte) (h : Absorbing m s) (ha : s.Admits 1) :
    Absorbing (m ++ [b]) (absorbed b s) where
  between := absorbed_between h.between
  blkForm := by rw [absorbed_BLK]; exact wf_write _ _ _ h.blkForm (pos_lt s)
  mode := (absorbed_MODE b s).trans h.mode
  errcode := (absorbed_ERRCODE b s).trans h.errcode
  absorbed := absorbed_hasAbsorbed h.absorbed b h.blkForm ha

/-- Bytes within capacity are absorbed, and what of the capacity they leave is left. -/
theorem absorbedAll_absorbing {m : List Byte} {s : State} (bs : List Byte) (n : Nat) (h : Absorbing m s)
    (ha : s.Admits (bs.length + n)) : Absorbing (m ++ bs) (absorbedAll bs s) ∧ (absorbedAll bs s).Admits n := by
  induction bs generalizing m s with
  | nil => exact ⟨by rwa [List.append_nil], by rwa [List.length_nil, Nat.zero_add] at ha⟩
  | cons b rest ih =>
    rw [List.length_cons, Nat.add_right_comm] at ha
    rw [List.append_cons]
    exact ih (absorbed_absorbing b h (admits_mono ha (by omega))) (absorbed_admits b ha)

/-- Inside a message a command pushes its bytes, or answers and carries none. -/
theorem effectOf_insideMessage {i : Instr} {s : State} (hi : insideMessage i = true) (hm : s.MODE = .absorb)
    (ha : s.Admits (messageBytes i).length) :
    effectOf i s = .push (messageBytes i) ∨ messageBytes i = [] ∧ ∃ d, effectOf i s = .answer d := by
  have hpush : pushEffect (messageBytes i) s = .push (messageBytes i) := by
    rw [pushEffect, (admit_eq_none _ s).mpr ⟨ha.fits, ha.below⟩]
    exact if_pos hm
  cases i with
  | push1 _ | push2 _ _ | push3 _ _ _ => exact .inl hpush
  | nop | rdst => exact .inr ⟨rfl, _, rfl⟩
  | rdlen idx => exact .inr ⟨rfl, _, if_pos (of_decide_eq_true hi)⟩
  | init | final | rdh _ | rdx _ | loadw | expand _ | seed | round _ | fold => simp [insideMessage] at hi

theorem insideMessage_isCommand {i : Instr} (hi : insideMessage i = true) : isCommand i = true := by
  cases i with
  | push1 _ | push2 _ _ | push3 _ _ _ | nop | rdst | rdlen _ => rfl
  | init | final | rdh _ | rdx _ | loadw | expand _ | seed | round _ | fold => simp [insideMessage] at hi

theorem insideMessage_succeeds {m : List Byte} {s : State} {i : Instr} (n : Nat) (hi : insideMessage i = true)
    (h : Absorbing m s) (ha : s.Admits ((messageBytes i).length + n)) :
    ∃ t r, Succeeds [i] s t [r] ∧ Absorbing (m ++ messageBytes i) t ∧ t.Admits n := by
  have hc := insideMessage_isCommand hi
  obtain he | ⟨hnil, d, he⟩ := effectOf_insideMessage hi h.mode (admits_mono ha (Nat.le_add_right _ n))
  · obtain ⟨habs, hadm⟩ := absorbedAll_absorbing (messageBytes i) n h ha
    exact ⟨_, _, command_succeeds hc h.between he rfl, respond_absorbing _ _ habs, hadm.fits, hadm.below⟩
  · have hadm := admits_mono ha (Nat.le_add_left n _)
    rw [hnil, List.append_nil]
    exact ⟨_, _, command_succeeds hc h.between he rfl, respond_absorbing _ _ h, hadm.fits, hadm.below⟩

theorem allInsideMessage_succeeds {m : List Byte} {s : State} (is : List Instr) (hi : ∀ i ∈ is, insideMessage i = true)
    (h : Absorbing m s) (ha : s.Admits (is.flatMap messageBytes).length) :
    ∃ t rs, Succeeds is s t rs ∧ Absorbing (m ++ is.flatMap messageBytes) t := by
  induction is generalizing m s with
  | nil => exact ⟨s, [], .nil s, by rwa [List.flatMap_nil, List.append_nil]⟩
  | cons i is ih =>
    obtain ⟨hi0, hrest⟩ := List.forall_mem_cons.mp hi
    rw [List.flatMap_cons, List.length_append] at ha
    obtain ⟨t, r, hfirst, habs, hadm⟩ := insideMessage_succeeds _ hi0 h ha
    obtain ⟨u, rs, hothers, hend⟩ := ih hrest habs hadm
    exact ⟨u, r :: rs, hfirst.append hothers, by rwa [List.flatMap_cons, ← List.append_assoc]⟩

/-- The message is complete and its digest is in `H`. -/
structure Digested (m : List Byte) (s : State) : Prop where
  between : s.Between
  mode : s.MODE = .done
  errcode : s.ERRCODE = 0#4
  digest : s.HasDigest m

theorem final_succeeds {m : List Byte} {s : State} (h : Absorbing m s) :
    ∃ t r, Succeeds [.final] s t [r] ∧ Digested m t := by
  have he : effectOf .final s = .finish := if_pos h.mode
  refine ⟨_, _, command_succeeds rfl h.between he rfl, ⟨rfl, rfl⟩, rfl, (finished_ERRCODE s).trans h.errcode, ?_⟩
  exact ⟨(congrArg BitVec.toNat (finished_LEN s)).trans h.absorbed.len, finished_H_of_hasAbsorbed h.absorbed h.blkForm⟩

/-- A whole message within capacity, whatever came before it. -/
theorem message_succeeds {s : State} (is : List Instr) (h : s.Between) (hw : s.BLK.wf = true)
    (hi : ∀ i ∈ is, insideMessage i = true)
    (hcap : ∀ cap, s.cfg.padcap = some cap → paddedLen (is.flatMap messageBytes).length ≤ cap)
    (hlen : (is.flatMap messageBytes).length < 2 ^ 61) :
    ∃ t rs, Succeeds ([.init] ++ is ++ [.final]) s t rs ∧ Digested (is.flatMap messageBytes) t := by
  have hinit : Succeeds [.init] s _ _ := command_succeeds rfl h rfl rfl
  have hopen : Absorbing [] (openMessage s).respondStatus := respond_absorbing _ _ (openMessage_absorbing h hw)
  have hadm := openMessage_admits _ hcap hlen
  obtain ⟨t, rs, hpushes, habs⟩ := allInsideMessage_succeeds is hi hopen ⟨hadm.fits, hadm.below⟩
  obtain ⟨u, r, hfinal, hdone⟩ := final_succeeds habs
  exact ⟨u, _, (hinit.append hpushes).append hfinal, hdone⟩

/-! ### The read-out of the digest (R144, R196) -/

/-- The response of `RDX j` in DONE with hash state `h`. -/
def quadResponse (h : Vector Word 8) (j : BitVec 4) : Response := ⟨false, hexQuad h j⟩

/-- In DONE the read-outs succeed and write nothing but their responses. -/
theorem rdx_succeeds (js : List (BitVec 4)) (s : State) (hd : s.MODE = .done) :
    Succeeds (js.map .rdx) s { s with out := s.out ++ js.map (quadResponse s.H) } (js.map (quadResponse s.H)) where
  run := by
    induction js generalizing s with
    | nil => simp [execAll]
    | cons j js ih =>
      have hrdx : exec (.rdx j) s = .next (s.respond false (hexQuad s.H j)) := if_pos hd
      rw [List.map_cons, execAll, hrdx, andThen_next, ih (s.respond false (hexQuad s.H j)) hd]
      simp [State.respond, quadResponse]
  out := rfl
  count := by rw [List.length_map, List.length_map]
  faultless := List.forall_mem_map.mpr fun _ _ => rfl

theorem be32_fromBe32 (b0 b1 b2 b3 : Byte) : be32 (fromBe32 b0 b1 b2 b3) = [b0, b1, b2, b3] := by
  obtain ⟨h0, h1, h2, h3⟩ := (format2_iff (fromBe32 b0 b1 b2 b3) b0 b1 b2 b3).mp rfl
  rw [opcodeOf] at h0
  rw [be32, h0, h1, h2, h3]

/-- The entries `4j` to `4j+3` of a list. -/
def quadAt (l : List Byte) (j : Nat) : List Byte :=
  [l.getD (4 * j) 0#8, l.getD (4 * j + 1) 0#8, l.getD (4 * j + 2) 0#8, l.getD (4 * j + 3) 0#8]

/-- A list of four-byte groups is its groups, one after another. -/
theorem flatMap_quadAt (n : Nat) (l : List Byte) (h : l.length = 4 * n) : (List.range n).flatMap (quadAt l) = l := by
  induction n generalizing l with
  | zero => rw [List.length_eq_zero_iff.mp h]; rfl
  | succ n ih =>
    match l, h with
    | a :: b :: c :: d :: l, h =>
      have hl : l.length = 4 * n := by simp only [List.length_cons] at h; omega
      rw [List.range_succ_eq_map, List.flatMap_cons, List.flatMap_map]
      exact congrArg (a :: b :: c :: d :: ·) (ih l hl)

/-- `RDX j` answers the characters `4j` to `4j+3` (R144). -/
theorem be32_hexQuad (h : Vector Word 8) (j : BitVec 4) :
    be32 (hexQuad h j) = quadAt (hexser h).toList j.toNat := by
  have hj : j.toNat < 16 := j.isLt
  have hget (k : Nat) (hk : k < 64) : (hexser h).toList.getD k 0#8 = (hexser h)[k] := by
    rw [List.getD_eq_getElem _ _ (by rwa [Vector.length_toList]), Vector.getElem_toList]
  rw [hexQuad, be32_fromBe32, quadAt, hget _ (by omega), hget _ (by omega), hget _ (by omega), hget _ (by omega)]

theorem quadResponses_spell (h : Vector Word 8) :
    (((List.range 16).map (BitVec.ofNat 4)).map (quadResponse h)).flatMap (fun r => be32 r.D) = (hexser h).toList := by
  rw [List.flatMap_map, List.flatMap_map]
  calc (List.range 16).flatMap (fun j => be32 (hexQuad h (BitVec.ofNat 4 j)))
    _ = (List.range 16).flatMap (quadAt (hexser h).toList) := by
      refine List.flatMap_congr fun j hj => ?_
      rw [be32_hexQuad, BitVec.toNat_ofNat, Nat.mod_eq_of_lt (List.mem_range.mp hj)]
    _ = (hexser h).toList := flatMap_quadAt 16 _ (by simp)

/-- Settles O55: the bytes go in as one message, then the sixteen read-outs spell its digest. -/
theorem hashProgramSpellsTheDigest : Obligations.HashProgramSpellsTheDigest := by
  intro s m h hw hcap hlen
  have hbytes := pushB_messageBytes m
  obtain ⟨t, earlier, hmessage, hdone⟩ := message_succeeds (pushB m) h hw (pushB_insideMessage m) (by rwa [hbytes])
    (by rwa [hbytes])
  rw [hbytes] at hdone
  have hread := rdx_succeeds ((List.range 16).map (BitVec.ofNat 4)) t hdone.mode
  rw [List.map_map] at hread
  have hall := hmessage.append hread
  refine ⟨_, earlier, _, hall.run, hdone.mode, hall.out.trans (List.append_assoc ..).symm, rfl, hall.faultless, ?_⟩
  rw [quadResponses_spell, hdone.digest.hash]

end Sys2Proof.Proofs
end

section
/-! PROOFS, family 40_primitives: what each primitive does to one bit (R83 to R90). Two words are equal when their bits
are, so most equal forms and corner cases follow from one equation per primitive. -/

namespace Sys2Proof.Proofs

open Sys2Proof.Machine

theorem or_eq_xor_of_and_eq_zero {w : Nat} (x y : BitVec w) (h : x &&& y = 0#w) : x ||| y = x ^^^ y :=
  BitVec.eq_of_getLsbD_eq fun i _ => by
    have hi : (x.getLsbD i && y.getLsbD i) = false := by rw [← BitVec.getLsbD_and, h, BitVec.getLsbD_zero]
    rw [BitVec.getLsbD_or, BitVec.getLsbD_xor]
    cases hx : x.getLsbD i with
    | false => simp
    | true => simpa [hx] using hi

theorem allOnes_word : BitVec.allOnes 32 = 0xFFFFFFFF#32 := rfl

theorem ones_and (x : Word) : 0xFFFFFFFF#32 &&& x = x := by rw [← allOnes_word, BitVec.allOnes_and]

theorem ones_or (x : Word) : 0xFFFFFFFF#32 ||| x = 0xFFFFFFFF#32 := by rw [← allOnes_word, BitVec.allOnes_or]

/-! ### The rotation (R83) -/

/-- What the right shift keeps and what the left shift brings in share no bit. -/
theorem rotated_halves_disjoint (x : Word) (n : Nat) : (x >>> n) &&& (x <<< (32 - n)) = 0#32 :=
  BitVec.eq_of_getLsbD_eq fun i _ => by
    by_cases hin : i < 32 - n
    · simp [hin]
    · simp [BitVec.getLsbD_of_ge x (n + i) (by omega)]

theorem rotr_eq_xor (x : Word) (n : Nat) (h : 0 < n ∧ n < 32) : rotr x n h = (x >>> n) ^^^ (x <<< (32 - n)) :=
  or_eq_xor_of_and_eq_zero _ _ (rotated_halves_disjoint x n)

theorem rotr_eq_add (x : Word) (n : Nat) (h : 0 < n ∧ n < 32) : rotr x n h = (x >>> n) + (x <<< (32 - n)) :=
  (BitVec.add_eq_or_of_and_eq_zero _ _ (rotated_halves_disjoint x n)).symm

theorem getLsbD_rotr (x : Word) (n : Nat) (h : 0 < n ∧ n < 32) {i : Nat} (hi : i < 32) :
    (rotr x n h).getLsbD i = x.getLsbD ((i + n) % 32) := by
  rw [rotr, BitVec.getLsbD_or, BitVec.getLsbD_ushiftRight, BitVec.getLsbD_shiftLeft]
  by_cases hin : i < 32 - n
  · have hmod : (i + n) % 32 = n + i := by omega
    simp [hin, hmod]
  · have hmod : (i + n) % 32 = i - (32 - n) := by omega
    simp [hin, hi, hmod, BitVec.getLsbD_of_ge x (n + i) (by omega)]

/-- Adding `n` modulo `m` turns the list of the `m` positions round; it drops none and takes none twice. -/
theorem map_add_mod_range (m n : Nat) : (List.range m).map (fun i => (i + n) % m) = (List.range m).rotate n :=
  List.ext_getElem (by simp) fun i _ _ => by simp [List.getElem_rotate]

theorem countP_rotr (x : Word) (n : Nat) (h : 0 < n ∧ n < 32) :
    (List.range 32).countP (fun i => (rotr x n h).getLsbD i) = (List.range 32).countP (fun i => x.getLsbD i) :=
  calc (List.range 32).countP (fun i => (rotr x n h).getLsbD i)
    _ = (List.range 32).countP (fun i => x.getLsbD ((i + n) % 32)) :=
      List.countP_congr fun i hi => by rw [getLsbD_rotr x n h (List.mem_range.mp hi)]
    _ = ((List.range 32).rotate n).countP (fun i => x.getLsbD i) := by
      rw [← map_add_mod_range, List.countP_map]; rfl
    _ = (List.range 32).countP (fun i => x.getLsbD i) := (List.rotate_perm _ n).countP_eq _

theorem rotr_zero (n : Nat) (h : 0 < n ∧ n < 32) : rotr 0#32 n h = 0#32 := by simp [rotr]

theorem rotr_ones (n : Nat) (h : 0 < n ∧ n < 32) : rotr 0xFFFFFFFF#32 n h = 0xFFFFFFFF#32 :=
  BitVec.eq_of_getLsbD_eq fun i hi => by
    have hmod : (i + n) % 32 < 32 := Nat.mod_lt _ (by decide)
    rw [getLsbD_rotr _ n h hi, ← allOnes_word, BitVec.getLsbD_allOnes, BitVec.getLsbD_allOnes, decide_eq_true hmod,
      decide_eq_true hi]

theorem rotr_xor (x y : Word) (n : Nat) (h : 0 < n ∧ n < 32) : rotr (x ^^^ y) n h = rotr x n h ^^^ rotr y n h :=
  BitVec.eq_of_getLsbD_eq fun i hi => by
    rw [BitVec.getLsbD_xor, getLsbD_rotr _ n h hi, getLsbD_rotr x n h hi, getLsbD_rotr y n h hi, BitVec.getLsbD_xor]

/-- Settles O7: the two halves of a rotation share no bit, and its bits are those of the word, turned round. -/
theorem rotationMovesBits : Obligations.RotationMovesBits := fun x n h =>
  ⟨rfl, rotr_eq_xor x n h, rotr_eq_add x n h, fun _ hi => getLsbD_rotr x n h hi, countP_rotr x n h, rotr_zero n h,
    rotr_ones n h⟩

/-! ### The shift (R84) -/

theorem toNat_shr (x : Word) (n : Nat) : (shr x n).toNat = x.toNat / 2 ^ n := by
  rw [shr, BitVec.toNat_ushiftRight, Nat.shiftRight_eq_div_pow]

theorem getLsbD_shr (x : Word) (n i : Nat) : (shr x n).getLsbD i = (decide (i + n ≤ 31) && x.getLsbD (i + n)) := by
  rw [shr, BitVec.getLsbD_ushiftRight, Nat.add_comm n i]
  by_cases hin : i + n ≤ 31
  · simp [hin]
  · simp [BitVec.getLsbD_of_ge x (i + n) (by omega)]

theorem shr_xor (x y : Word) (n : Nat) : shr (x ^^^ y) n = shr x n ^^^ shr y n := BitVec.ushiftRight_xor_distrib x y n

/-- Settles O8: the quotient, and the bit that moves down. -/
theorem shiftIsFloorDivision : Obligations.ShiftIsFloorDivision := fun x n => ⟨toNat_shr x n, getLsbD_shr x n⟩

/-! ### Selection (R85) -/

theorem getLsbD_choose (x y z : Word) {i : Nat} (hi : i < 32) :
    (choose x y z).getLsbD i = if x.getLsbD i then y.getLsbD i else z.getLsbD i := by
  rw [choose, BitVec.getLsbD_or, BitVec.getLsbD_and, BitVec.getLsbD_and, BitVec.getLsbD_not]
  cases x.getLsbD i <;> simp [hi]

theorem choose_eq_xor (x y z : Word) : choose x y z = (x &&& y) ^^^ (~~~x &&& z) :=
  or_eq_xor_of_and_eq_zero _ _ (BitVec.eq_of_getLsbD_eq fun i _ => by
    cases hx : x.getLsbD i <;> simp [hx])

theorem choose_eq_xor_and_xor (x y z : Word) : choose x y z = z ^^^ (x &&& (y ^^^ z)) :=
  BitVec.eq_of_getLsbD_eq fun i hi => by
    rw [getLsbD_choose x y z hi, BitVec.getLsbD_xor, BitVec.getLsbD_and, BitVec.getLsbD_xor]
    cases x.getLsbD i with
    | false => simp
    | true => simp [Bool.xor_comm (y.getLsbD i)]

theorem choose_ones (y z : Word) : choose 0xFFFFFFFF#32 y z = y := by simp [choose, ones_and]

theorem choose_zero (y z : Word) : choose 0#32 y z = z := by simp [choose, ones_and]

theorem choose_self (x y : Word) : choose x y y = y :=
  BitVec.eq_of_getLsbD_eq fun i hi => by rw [getLsbD_choose x y y hi, ite_self]

/-! ### Majority (R86) -/

theorem getLsbD_majority (x y z : Word) (i : Nat) :
    (majority x y z).getLsbD i = Bool.atLeastTwo (x.getLsbD i) (y.getLsbD i) (z.getLsbD i) := by
  simp only [majority, BitVec.getLsbD_or, BitVec.getLsbD_and, Bool.atLeastTwo]

/-- The vote counts the operand bits that are 1. -/
theorem atLeastTwo_eq_decide (a b c : Bool) : Bool.atLeastTwo a b c = decide (2 ≤ a.toNat + b.toNat + c.toNat) := by
  revert a b c; decide

theorem majority_eq_xor (x y z : Word) : majority x y z = (x &&& y) ^^^ (x &&& z) ^^^ (y &&& z) :=
  BitVec.eq_of_getLsbD_eq fun i _ => by
    simp only [getLsbD_majority, BitVec.getLsbD_xor, BitVec.getLsbD_and]
    cases x.getLsbD i with
    | false => simp
    | true => cases y.getLsbD i <;> simp

theorem majority_eq_or_and_or (x y z : Word) : majority x y z = (x &&& y) ||| (z &&& (x ||| y)) := by
  rw [majority, BitVec.or_assoc, BitVec.and_or_distrib_left, BitVec.and_comm z x, BitVec.and_comm z y]

theorem majority_swap_left (x y z : Word) : majority y x z = majority x y z := by
  rw [majority, majority, BitVec.or_assoc, BitVec.or_assoc, BitVec.and_comm y x, BitVec.or_comm (y &&& z)]

theorem majority_swap_right (x y z : Word) : majority x z y = majority x y z := by
  rw [majority, majority, BitVec.or_comm (x &&& z), BitVec.and_comm z y]

theorem majority_self (x z : Word) : majority x x z = x :=
  BitVec.eq_of_getLsbD_eq fun i _ => by
    rw [getLsbD_majority]
    cases x.getLsbD i <;> simp

theorem majority_zero (y z : Word) : majority 0#32 y z = y &&& z := by simp [majority]

theorem majority_ones (y z : Word) : majority 0xFFFFFFFF#32 y z = y ||| z := by
  rw [majority_eq_or_and_or, ones_and, ones_or, BitVec.and_comm z, ones_and]

/-- Settles O9: both primitives bit by bit, their equal forms and their corner cases. -/
theorem chooseAndMajorityPerBit : Obligations.ChooseAndMajorityPerBit := fun x y z =>
  ⟨rfl, choose_eq_xor x y z, choose_eq_xor_and_xor x y z, fun _ hi => getLsbD_choose x y z hi, choose_ones y z,
    choose_zero y z, choose_self x y, rfl, majority_eq_xor x y z, majority_eq_or_and_or x y z,
    fun i _ => (getLsbD_majority x y z i).trans (atLeastTwo_eq_decide _ _ _), majority_swap_left x y z,
    majority_swap_right x y z, majority_self x z, majority_zero y z, majority_ones y z⟩

/-! ### The scramblers (R87 to R90) -/

theorem xor_xor_xor_distrib {w : Nat} (a b c a' b' c' : BitVec w) :
    (a ^^^ a') ^^^ (b ^^^ b') ^^^ (c ^^^ c') = (a ^^^ b ^^^ c) ^^^ (a' ^^^ b' ^^^ c') := by
  ac_rfl

section
variable (x y : Word)

theorem sigma0_xor : sigma0 (x ^^^ y) = sigma0 x ^^^ sigma0 y := by
  simp only [sigma0, rotr_xor, xor_xor_xor_distrib]

theorem sigma1_xor : sigma1 (x ^^^ y) = sigma1 x ^^^ sigma1 y := by
  simp only [sigma1, rotr_xor, xor_xor_xor_distrib]

theorem gamma0_xor : gamma0 (x ^^^ y) = gamma0 x ^^^ gamma0 y := by
  simp only [gamma0, rotr_xor, shr_xor, xor_xor_xor_distrib]

theorem gamma1_xor : gamma1 (x ^^^ y) = gamma1 x ^^^ gamma1 y := by
  simp only [gamma1, rotr_xor, shr_xor, xor_xor_xor_distrib]

variable {i : Nat} (hi : i < 32)
include hi

theorem getLsbD_sigma0 : (sigma0 x).getLsbD i =
    (x.getLsbD ((i + 2) % 32) ^^ x.getLsbD ((i + 13) % 32) ^^ x.getLsbD ((i + 22) % 32)) := by
  simp only [sigma0, BitVec.getLsbD_xor, getLsbD_rotr, hi]

theorem getLsbD_sigma1 : (sigma1 x).getLsbD i =
    (x.getLsbD ((i + 6) % 32) ^^ x.getLsbD ((i + 11) % 32) ^^ x.getLsbD ((i + 25) % 32)) := by
  simp only [sigma1, BitVec.getLsbD_xor, getLsbD_rotr, hi]

theorem getLsbD_gamma0 : (gamma0 x).getLsbD i =
    (x.getLsbD ((i + 7) % 32) ^^ x.getLsbD ((i + 18) % 32) ^^ (decide (i + 3 ≤ 31) && x.getLsbD (i + 3))) := by
  simp only [gamma0, BitVec.getLsbD_xor, getLsbD_rotr, getLsbD_shr, hi]

theorem getLsbD_gamma1 : (gamma1 x).getLsbD i =
    (x.getLsbD ((i + 17) % 32) ^^ x.getLsbD ((i + 19) % 32) ^^ (decide (i + 10 ≤ 31) && x.getLsbD (i + 10))) := by
  simp only [gamma1, BitVec.getLsbD_xor, getLsbD_rotr, getLsbD_shr, hi]

end

/-- Settles O10: each scrambler takes its bits and its linearity from the rotation and the shift; the corner cases are
two fixed words. -/
theorem scramblersPerBit : Obligations.ScramblersPerBit :=
  ⟨fun x _ hi => ⟨getLsbD_sigma0 x hi, getLsbD_sigma1 x hi, getLsbD_gamma0 x hi, getLsbD_gamma1 x hi⟩,
    fun x y => ⟨sigma0_xor x y, sigma1_xor x y, gamma0_xor x y, gamma1_xor x y⟩, by decide⟩

end Sys2Proof.Proofs
end

section
/-! PROOFS, family 41_message_commands, part 1: `INIT`, the padded message and the admission check (R100 to R102), and the
whole message from `INIT` to `FINAL` (R108). -/

namespace Sys2Proof.Proofs

open Sys2Proof.Machine Sys2Proof.Laws

/-! ### `INIT` (R100) -/

theorem decodeCommand_eq_init_iff (c : BitVec 32) : decodeCommand c = .ok .init ↔ c = 0x01000000#32 := by
  rw [formatZ_row c 0x01#8 (i := .init) rfl rfl, BitVec.and_allOnes]
  rfl

/-- The status word of a message just opened: ABSORB, no error, no open byte. -/
theorem openMessage_status (s : State) : (openMessage s).status = 0x00000001#32 := by
  rw [State.status, openMessage_LEN, openMessage_ERRCODE, openMessage_MODE]
  decide

theorem exec_init (s : State) : exec .init s = .next ((openMessage s).respond false 0x00000001#32) := by
  rw [exec, execInit, State.respondStatus, openMessage_status]

/-- Opening a message that has just been opened changes nothing. -/
theorem openMessage_respond_openMessage (f : Bool) (d : Word) (s : State) :
    openMessage ((openMessage s).respond f d) = (openMessage s).respond f d := rfl

/-- Settles O25: `INIT` opens a message and answers its status, whatever the state; opening it again changes nothing. -/
theorem initOpensMessage : Obligations.InitOpensMessage := by
  refine ⟨fun c _ => decodeCommand_eq_init_iff c, fun s => ⟨exec_init s, _, exec_init s, ?_⟩⟩
  rw [exec_init, openMessage_respond_openMessage]
  rfl

/-! ### The padded length and the padded message (R101) -/

theorem paddedLen_mod (l : Nat) : paddedLen l % 64 = 0 := Nat.mul_mod_right 64 _

theorem add_nine_le_paddedLen (l : Nat) : l + 9 ≤ paddedLen l := by rw [paddedLen]; omega

theorem paddedLen_le_of_mod {l n : Nat} (hn : n % 64 = 0) (hl : l + 9 ≤ n) : paddedLen l ≤ n := by
  rw [paddedLen]; omega

theorem pad_length (m : List Byte) : (pad m).length = paddedLen m.length := by
  have hle := add_nine_le_paddedLen m.length
  simp only [pad, List.length_append, List.length_replicate, List.length_singleton, be64_length]
  omega

/-- The number of zeros of R101. -/
theorem paddedLen_zeros (l : Nat) : paddedLen l - l - 9 ≤ 63 ∧
    ((paddedLen l - l - 9 : Nat) : Int) = (55 - (l : Int)) % 64 := by
  rw [paddedLen]
  omega

/-- Settles O29: the padded length is the least multiple, and the zeros fill what the message, the terminator and the
length field leave of it. -/
theorem paddedMessageShape : Obligations.PaddedMessageShape := fun m =>
  ⟨paddedLen_mod _, add_nine_le_paddedLen _, fun _ => paddedLen_le_of_mod, pad_length m, _, (paddedLen_zeros _).1,
    (paddedLen_zeros _).2, rfl, rfl⟩

/-! ### The admission check (R102) -/

theorem admission_eq_none_iff (n : Nat) (s : State) : admission n s = none ↔ s.Admits n :=
  (admit_eq_none n s).trans ⟨fun ⟨hfits, hbelow⟩ => ⟨hfits, hbelow⟩, fun h => ⟨h.fits, h.below⟩⟩

theorem exceedsCapacity_iff (c : Config) (l : Nat) :
    exceedsCapacity c l = true ↔ ∃ cap, c.padcap = some cap ∧ cap < paddedLen l := by
  rw [exceedsCapacity]
  cases c.padcap <;> simp

theorem admission_tooLarge {n : Nat} {s : State}
    (h : ∃ cap, s.cfg.padcap = some cap ∧ cap < paddedLen (s.LEN.toNat + n)) :
    admission n s = some .tooLarge :=
  if_pos ((exceedsCapacity_iff _ _).mpr h)

/-- LEN_OVERFLOW is raised by a message within capacity whose length reaches 2^61, and by no other. -/
theorem admission_eq_lenOverflow_iff (n : Nat) (s : State) : admission n s = some .lenOverflow ↔
    (∀ cap, s.cfg.padcap = some cap → paddedLen (s.LEN.toNat + n) ≤ cap) ∧ 2 ^ 61 ≤ s.LEN.toNat + n := by
  have hfits : ¬ exceedsCapacity s.cfg (s.LEN.toNat + n) = true ↔
      ∀ cap, s.cfg.padcap = some cap → paddedLen (s.LEN.toNat + n) ≤ cap := by
    simp only [exceedsCapacity_iff, not_exists, not_and, Nat.not_lt]
  rw [← hfits, admission]
  split_ifs <;> simp_all

/-- A message within a capacity of at most 2^61 bytes is shorter than 2^61 bytes. -/
theorem admission_ne_lenOverflow {n : Nat} {s : State} (hc : s.cfg.wf = true) (hset : s.cfg.padcap ≠ none) :
    admission n s ≠ some .lenOverflow := by
  obtain ⟨cap, hcap⟩ := Option.ne_none_iff_exists'.mp hset
  intro h
  obtain ⟨hfits, hlen⟩ := (admission_eq_lenOverflow_iff n s).mp h
  have hpadded := add_nine_le_paddedLen (s.LEN.toNat + n)
  have hle := hfits cap hcap
  simp only [Config.wf, hcap, Bool.and_eq_true, decide_eq_true_eq] at hc
  omega

theorem lt_paddedLen_iff {cap l : Nat} (hmod : cap % 64 = 0) (hcap : 64 ≤ cap) : cap < paddedLen l ↔ cap - 9 < l := by
  rw [paddedLen]
  omega

/-- Settles O30: the three answers of the check, and the arithmetic of the padded length against a capacity. -/
theorem admissionCheckArithmetic : Obligations.AdmissionCheckArithmetic :=
  ⟨fun n s => ⟨admission_tooLarge, fun hfits hlen => (admission_eq_lenOverflow_iff n s).mpr ⟨hfits, hlen⟩,
      admission_eq_none_iff n s, admission_ne_lenOverflow⟩,
    fun _ _ => lt_paddedLen_iff, fun _ _ => paddedLen_mono⟩

/-! ### The whole message (R108) -/

/-- Settles O53: `INIT`, the commands inside the message and `FINAL` succeed, with one response each. -/
theorem digestOfThePushedMessage : Obligations.DigestOfThePushedMessage := by
  intro s is h hw hi hcap hlen
  obtain ⟨t, rs, hrun, hdone⟩ := message_succeeds is h hw hi hcap hlen
  refine ⟨t, hrun.run, hdone.mode, hdone.errcode, hdone.digest.hash, hdone.digest.len, hdone.between, ?_⟩
  rw [hrun.out, List.length_append, hrun.count]
  simp only [List.length_append, List.length_singleton]
  omega

end Sys2Proof.Proofs
end

section
/-! PROOFS, family 41_message_commands, part 2: what a push and `FINAL` leave in every register and every cell of `BLK`
(R103 to R107), and that a push is its bytes one by one. -/

namespace Sys2Proof.Proofs

open Sys2Proof.Machine Sys2Proof.Laws

/-! ### The datapath after a message operation -/

/-- The hash state, the schedule and the working variables are the same. -/
structure SameDatapath (s t : State) : Prop where
  hash : t.H = s.H
  sched : t.W = s.W
  vars : t.vars = s.vars

/-- The datapath holds what the compression of the block `b` into the hash state `h` leaves (R126). -/
structure CompressionOf (h : Vector Word 8) (b : Vector Byte 64) (t : State) : Prop where
  hash : t.H = compressBlock h b
  sched : t.W = scheduleOf b
  vars : t.vars = roundsOf h (scheduleOf b) 64

theorem compressed_compressionOf (s : State) : CompressionOf s.H s.BLK.block (compressed s) := ⟨rfl, rfl, rfl⟩

theorem CompressionOf.of_same {h : Vector Word 8} {b : Vector Byte 64} {s t : State} (hc : CompressionOf h b s)
    (hs : SameDatapath s t) : CompressionOf h b t :=
  ⟨hs.hash.trans hc.hash, hs.sched.trans hc.sched, hs.vars.trans hc.vars⟩

/-- A byte before the last place of the block is only written and counted. -/
theorem absorbed_sameDatapath {s : State} (b : Byte) (hp : s.pos ≠ 63) : SameDatapath s (absorbed b s) := by
  have hlt := pos_lt s
  have heq : absorbed b s = withByte b s := if_neg (by rw [withByte_pos]; omega)
  rw [heq]
  exact ⟨rfl, rfl, rfl⟩

/-- A byte at the last place of the block completes it. -/
theorem absorbed_compressionOf {s : State} (b : Byte) (hw : s.BLK.wf = true) (hp : s.pos = 63) :
    CompressionOf s.H (filledBlock s [b]) (absorbed b s) := by
  have heq : absorbed b s = compressed (withByte b s) := if_pos (by rw [withByte_pos, hp])
  rw [heq, ← block_withByte b s hw hp]
  exact compressed_compressionOf (withByte b s)

theorem absorbed_wf (b : Byte) {s : State} (hw : s.BLK.wf = true) : (absorbed b s).BLK.wf = true := by
  rw [absorbed_BLK]
  exact wf_write _ _ _ hw (pos_lt s)

/-- Bytes that leave the block open are only written and counted. -/
theorem absorbedAll_sameDatapath {s : State} (bs : List Byte) (hp : s.pos + bs.length < 64) :
    SameDatapath s (absorbedAll bs s) := by
  induction bs generalizing s with
  | nil => exact ⟨rfl, rfl, rfl⟩
  | cons b rest ih =>
    rw [List.length_cons] at hp
    have hfirst := absorbed_sameDatapath b (s := s) (by omega)
    have hrest := ih (s := absorbed b s) (by rw [absorbed_pos]; omega)
    exact ⟨hrest.hash.trans hfirst.hash, hrest.sched.trans hfirst.sched, hrest.vars.trans hfirst.vars⟩

/-- The byte that completes a block is the last that counts for it. -/
theorem filledBlock_cons_of_pos {s : State} (b : Byte) (rest : List Byte) (hp : s.pos = 63) :
    filledBlock s (b :: rest) = filledBlock s [b] := by
  ext1 i hi
  simp only [filledBlock, Vector.getElem_ofFn, hp]
  by_cases h : i < 63
  · rw [if_pos h, if_pos h]
  · rw [if_neg h, if_neg h, show i - 63 = 0 by omega]
    rfl

/-- Which block bytes fill does not depend on how many of them are already in `BLK`. -/
theorem filledBlock_absorbed {s : State} (b : Byte) (rest : List Byte) (hw : s.BLK.wf = true) (hp : s.pos ≠ 63) :
    filledBlock (absorbed b s) rest = filledBlock s (b :: rest) := by
  have hlt := pos_lt s
  have hpos : (absorbed b s).pos = s.pos + 1 := by rw [absorbed_pos]; omega
  ext1 i hi
  simp only [filledBlock, Vector.getElem_ofFn, hpos, absorbed_BLK, read_write _ _ _ _ hw]
  by_cases h1 : i < s.pos
  · rw [if_pos (by omega), if_neg (by omega), if_pos h1]
  · rw [if_neg h1]
    by_cases h2 : i = s.pos
    · rw [if_pos (by omega), if_pos h2, h2, Nat.sub_self, List.getD_cons_zero]
    · rw [if_neg (by omega), show i - s.pos = i - (s.pos + 1) + 1 by omega, List.getD_cons_succ]

/-- Bytes that complete one block leave the datapath of its compression. -/
theorem absorbedAll_compressionOf {s : State} (bs : List Byte) (hw : s.BLK.wf = true) (hn : bs.length ≤ 64)
    (hp : 64 ≤ s.pos + bs.length) : CompressionOf s.H (filledBlock s bs) (absorbedAll bs s) := by
  have hlt := pos_lt s
  induction bs generalizing s with
  | nil => rw [List.length_nil] at hp; omega
  | cons b rest ih =>
    rw [List.length_cons] at hn hp
    by_cases h : s.pos = 63
    · rw [filledBlock_cons_of_pos b rest h]
      exact (absorbed_compressionOf b hw h).of_same (absorbedAll_sameDatapath rest (by rw [absorbed_pos]; omega))
    · rw [← filledBlock_absorbed b rest hw h, ← (absorbed_sameDatapath b h).hash]
      exact ih (absorbed_wf b hw) (by omega) (by rw [absorbed_pos]; omega) (pos_lt _)

/-! ### The block buffer and the counters after absorbed bytes -/

/-- A cell that no byte goes to keeps its byte. -/
theorem read_absorbedAll_of_ne {s : State} (bs : List Byte) (a : Nat) (hw : s.BLK.wf = true)
    (ha : ∀ k, k < bs.length → a ≠ (s.pos + k) % 64) : (absorbedAll bs s).BLK.read a = s.BLK.read a := by
  induction bs generalizing s with
  | nil => rfl
  | cons b rest ih =>
    have hlt := pos_lt s
    have hfirst : a ≠ s.pos := by have := ha 0 (by simp); omega
    have hrest : ∀ k, k < rest.length → a ≠ ((absorbed b s).pos + k) % 64 := fun k hk => by
      have := ha (k + 1) (by rw [List.length_cons]; omega)
      rw [absorbed_pos]
      omega
    exact (ih (absorbed_wf b hw) hrest).trans (by rw [absorbed_BLK, read_write _ _ _ _ hw, if_neg hfirst])

/-- Byte `k` goes to the cell `k` places after `POS`, round the block. -/
theorem read_absorbedAll {s : State} (bs : List Byte) (k : Nat) (hw : s.BLK.wf = true) (hn : bs.length ≤ 64)
    (hk : k < bs.length) : (absorbedAll bs s).BLK.read ((s.pos + k) % 64) = bs.getD k 0#8 := by
  have hlt := pos_lt s
  induction bs generalizing s k with
  | nil => simp at hk
  | cons b rest ih =>
    rw [List.length_cons] at hn hk
    cases k with
    | zero =>
      rw [Nat.add_zero, Nat.mod_eq_of_lt hlt]
      refine (read_absorbedAll_of_ne rest s.pos (absorbed_wf b hw) fun j hj => ?_).trans ?_
      · rw [absorbed_pos]; omega
      · rw [absorbed_BLK, read_write _ _ _ _ hw, if_pos rfl, List.getD_cons_zero]
    | succ k =>
      have hplace : (s.pos + (k + 1)) % 64 = ((absorbed b s).pos + k) % 64 := by rw [absorbed_pos]; omega
      rw [hplace, List.getD_cons_succ]
      exact ih k (absorbed_wf b hw) (by omega) (by omega) (pos_lt _)

theorem absorbedAll_LEN {s : State} (bs : List Byte) (ha : s.Admits bs.length) :
    (absorbedAll bs s).LEN.toNat = s.LEN.toNat + bs.length := by
  induction bs generalizing s with
  | nil => rfl
  | cons b rest ih =>
    have hfirst := len_succ (admits_mono (k := 1) ha (by simp))
    have hrest := ih (absorbed_admits b ha)
    rw [absorbed_LEN, hfirst] at hrest
    rw [List.length_cons]
    exact hrest.trans (by omega)

theorem absorbedAll_ERRCODE (bs : List Byte) (s : State) : (absorbedAll bs s).ERRCODE = s.ERRCODE := by
  induction bs generalizing s with
  | nil => rfl
  | cons b rest ih => exact (ih _).trans (absorbed_ERRCODE b s)

/-! ### The pushes (R104 to R106) -/

theorem messageBytes_length_le (i : Instr) : (messageBytes i).length ≤ 3 := by cases i <;> simp [messageBytes]

/-- The commands that carry message bytes are the pushes. -/
theorem exec_eq_pushAll {i : Instr} (hi : messageBytes i ≠ []) (s : State) : exec i s = pushAll (messageBytes i) s := by
  cases i with
  | push1 _ | push2 _ _ | push3 _ _ _ => rfl
  | nop | init | final | rdst | rdlen _ | rdh _ | rdx _ | loadw | expand _ | seed | round _ | fold =>
    exact absurd rfl hi

/-- An admitted push absorbs its bytes and answers the status. -/
theorem exec_admitted_push {i : Instr} {s : State} (hi : messageBytes i ≠ []) (h : s.Between) (hm : s.MODE = .absorb)
    (ha : s.Admits (messageBytes i).length) :
    exec i s = .next (absorbedAll (messageBytes i) s).respondStatus := by
  have heffect : pushEffect (messageBytes i) s = .push (messageBytes i) := by
    rw [pushEffect, (admission_eq_none_iff _ s).mpr ha]
    exact if_pos hm
  rw [exec_eq_pushAll hi, pushAll_eq_apply _ s h, heffect]
  rfl

/-- Settles O26: a push absorbs at most three bytes, so it completes at most one block. -/
theorem pushAbsorbsItsBytes : Obligations.PushAbsorbsItsBytes := by
  intro i s hi h hw hm ha
  have hn : (messageBytes i).length ≤ 64 := (messageBytes_length_le i).trans (by decide)
  have hplace (k : Nat) : (s.LEN.toNat + k) % 64 = (s.pos + k) % 64 := (Nat.mod_add_mod ..).symm
  have hbetween := absorbedAll_between (messageBytes i) h
  have hsilent := absorbedAll_silent (messageBytes i) h
  refine ⟨_, exec_admitted_push hi h hm ha, absorbedAll_LEN _ ha, fun k hk => ?_, fun a hne => ?_, fun hp => ?_,
    fun hp => ?_, ?_, (absorbedAll_MODE _ s).trans hm, absorbedAll_ERRCODE _ s, hbetween.upc.trans h.upc.symm,
    hbetween.idleSequencer.trans h.idleSequencer.symm, hsilent.cfg, hsilent.port, hsilent.resets⟩
  · rw [hplace]
    exact read_absorbedAll _ k hw hn hk
  · exact read_absorbedAll_of_ne _ a hw fun k hk => hplace k ▸ hne k hk
  · obtain ⟨hhash, hsched, hvars⟩ := absorbedAll_sameDatapath _ hp
    exact ⟨hhash, hsched, hvars⟩
  · obtain ⟨hhash, hsched, hvars⟩ := absorbedAll_compressionOf _ hw hn hp
    exact ⟨hhash, hsched, hvars⟩
  · rw [respondStatus_out, hsilent.out]
    rfl

/-! ### A push, byte by byte (R105, R106) -/

/-- The two states differ in nothing but the responses. -/
def EqualButResponses (s t : State) : Prop := ∃ o, t = { s with out := o }

theorem EqualButResponses.refl (s : State) : EqualButResponses s s := ⟨s.out, rfl⟩

theorem EqualButResponses.respond {s t : State} (h : EqualButResponses s t) (f : Bool) (d : Word) :
    EqualButResponses s (t.respond f d) := by
  obtain ⟨o, rfl⟩ := h
  exact ⟨o ++ [⟨f, d⟩], rfl⟩

/-- Absorbing a byte does not look at the responses. -/
theorem absorbed_equalButResponses {s t : State} (b : Byte) (h : EqualButResponses s t) :
    EqualButResponses (absorbed b s) (absorbed b t) := by
  obtain ⟨o, rfl⟩ := h
  refine ⟨o, ?_⟩
  by_cases hp : (withByte b s).pos = 0
  · rw [absorbed, absorbed, if_pos hp, if_pos (by exact hp)]
    rfl
  · rw [absorbed, absorbed, if_neg hp, if_neg (by exact hp)]
    rfl

/-- From a state that differs from `u` in the responses, `PUSH1` gives one that so differs from `u` with the byte. -/
theorem push1_equalButResponses {u s : State} (b : Byte) (hs : EqualButResponses u s) (h : u.Between)
    (hm : u.MODE = .absorb) (ha : u.Admits 1) :
    ∃ t, exec (.push1 b) s = .next t ∧ EqualButResponses (absorbed b u) t := by
  refine ⟨(absorbed b s).respondStatus, ?_, (absorbed_equalButResponses b hs).respond _ _⟩
  obtain ⟨o, rfl⟩ := hs
  exact exec_admitted_push (List.cons_ne_nil b []) ⟨h.upc, h.idleSequencer⟩ hm ⟨ha.fits, ha.below⟩

/-- The next state of an admitted push, from any state that differs from it in the responses. -/
theorem exec_push_of_equalButResponses {i : Instr} {s t : State} (hi : messageBytes i ≠ []) (h : s.Between)
    (hm : s.MODE = .absorb) (ha : s.Admits (messageBytes i).length)
    (ht : EqualButResponses (absorbedAll (messageBytes i) s) t) :
    exec i s = .next { t with out := s.out ++ [⟨false, t.status⟩] } := by
  obtain ⟨o, rfl⟩ := ht
  rw [exec_admitted_push hi h hm ha, ← (absorbedAll_silent (messageBytes i) h).out]
  rfl

/-- Settles O27: each single push absorbs the next byte of the longer push, which is admitted since the whole is. -/
theorem pushIsItsBytesOneByOne : Obligations.PushIsItsBytesOneByOne := by
  intro b0 b1 b2 s h hm
  have h1 := absorbed_between (b := b0) h
  have hm1 := (absorbed_MODE b0 s).trans hm
  refine ⟨fun ha => ?_, fun ha => ?_⟩
  · obtain ⟨t1, he1, ht1⟩ := push1_equalButResponses b0 (.refl s) h hm (admits_mono ha (by decide))
    obtain ⟨t2, he2, ht2⟩ := push1_equalButResponses b1 ht1 h1 hm1 (absorbed_admits b0 ha)
    exact ⟨t1, t2, he1, he2, exec_push_of_equalButResponses (List.cons_ne_nil _ _) h hm ha ht2⟩
  · have ha1 := absorbed_admits b0 ha
    obtain ⟨t1, he1, ht1⟩ := push1_equalButResponses b0 (.refl s) h hm (admits_mono ha (by decide))
    obtain ⟨t2, he2, ht2⟩ := push1_equalButResponses b1 ht1 h1 hm1 (admits_mono ha1 (by decide))
    obtain ⟨t3, he3, ht3⟩ := push1_equalButResponses b2 ht2 (absorbed_between h1) ((absorbed_MODE b1 _).trans hm1)
      (absorbed_admits b1 ha1)
    exact ⟨t1, t2, t3, he1, he2, he3, exec_push_of_equalButResponses (List.cons_ne_nil _ _) h hm ha ht3⟩

/-! ### `FINAL` (R107) -/

theorem exec_final {s : State} (h : s.Between) (hm : s.MODE = .absorb) :
    exec .final s = .next (finished s).respondStatus := by
  have heffect : onlyIn .absorb s .finish = .finish := if_pos hm
  exact (execFinal_eq_apply s h).trans (by rw [heffect]; rfl)

theorem block_terminated (s : State) (hw : s.BLK.wf = true) : (terminated 64 s).BLK.block = terminatedBlock s := by
  ext1 i hi
  rw [block_get, read_terminated_eq_terminatedBlock 64 s hw le_rfl (pos_lt s) i hi]

/-- The hash state that the last compression starts from: after the first block when there are two. -/
theorem padded_H (s : State) (hw : s.BLK.wf = true) :
    (padded s).H = if s.pos < 56 then s.H else compressBlock s.H (terminatedBlock s) := by
  rw [padded]
  by_cases hp : s.pos < 56
  · rw [if_neg (by omega), if_pos hp]
    rfl
  · rw [if_pos (by omega), if_neg hp, setBlkBytes_H, compressed_H, block_terminated s hw]
    rfl

/-- The last block up to the length field: the open bytes and the terminator, unless they went into a block before. -/
theorem read_padded (s : State) (hw : s.BLK.wf = true) (a : Nat) (ha : a < 56) : (padded s).BLK.read a =
    if s.pos < 56 then if a < s.pos then s.BLK.read a else if a = s.pos then 0x80#8 else 0x00#8 else 0x00#8 := by
  rw [padded]
  by_cases hp : s.pos < 56
  · rw [if_neg (by omega), if_pos hp, read_terminated 56 s hw (by decide) hp a ha]
  · rw [if_pos (by omega), if_neg hp, setBlkBytes_BLK, compressed_BLK,
      read_writeBytes _ _ _ _ (terminated_wf 64 s le_rfl hw) (by rw [List.length_replicate]; decide),
      if_pos (by rw [List.length_replicate]; omega), List.getD_replicate _ (by omega)]

theorem padded_resets (s : State) : (padded s).resets = s.resets := by rw [padded]; split <;> rfl

theorem finished_BLK (s : State) : (finished s).BLK = (padded s).BLK.writeBytes 56 (be64 s.bitLength) := rfl

theorem read_finished (s : State) (hw : s.BLK.wf = true) (a : Nat) : (finished s).BLK.read a =
    if 56 ≤ a ∧ a < 64 then be64Byte s.bitLength (a - 56) else (padded s).BLK.read a := by
  rw [finished_BLK, read_writeBytes _ _ _ _ (padded_wf s hw) (by rw [be64_length]), be64_length]
  by_cases h : 56 ≤ a ∧ a < 64
  · rw [if_pos h, if_pos h, be64_getD _ _ (by omega)]
  · rw [if_neg h, if_neg h]

theorem finished_compressionOf (s : State) : CompressionOf (padded s).H (finished s).BLK.block (finished s) :=
  ⟨rfl, rfl, rfl⟩

/-- Byte `j` of an eight-byte field, as a number. -/
theorem be64Byte_toNat (v : BitVec 64) (j : Nat) (hj : j < 8) : (be64Byte v j).toNat = v.toNat / 256 ^ (7 - j) % 256 := by
  rw [be64Byte, BitVec.extractLsb'_toNat, Nat.shiftRight_eq_div_pow, show 56 - 8 * j = 8 * (7 - j) by omega, pow_mul]
  rfl

/-- Below 2^61 bytes the bit length does not wrap (R82). -/
theorem bitLength_toNat {s : State} (h : s.LEN.toNat < 2 ^ 61) : s.bitLength.toNat = 8 * s.LEN.toNat := by
  rw [State.bitLength, BitVec.toNat_shiftLeft, Nat.shiftLeft_eq]
  omega

/-- Settles O28: the last block cell by cell, and the datapath of its compression. -/
theorem finalPadsAndCompresses : Obligations.FinalPadsAndCompresses := by
  intro s h hw hm hlen
  refine ⟨_, exec_final h hm, fun a ha => ?_, fun j hj => ?_, fun a ha => ?_, ?_, finished_LEN s, rfl, ?_,
    finished_ERRCODE s, h.upc.symm, h.idleSequencer.symm, finished_cfg s, finished_port s, padded_resets s⟩
  · rw [respondStatus_BLK, read_finished s hw, if_neg (by omega), read_padded s hw a ha]
  · rw [respondStatus_BLK, read_finished s hw, if_pos (by omega), Nat.add_sub_cancel_left, be64Byte_toNat _ j hj,
      bitLength_toNat hlen]
  · rw [respondStatus_BLK, read_of_ge_64 _ 0 a (finished_wf s hw) ha, read_of_ge_64 _ 0 a hw ha]
  · obtain ⟨hhash, hsched, hvars⟩ := finished_compressionOf s
    rw [padded_H s hw] at hhash hvars
    exact ⟨hhash, hsched, hvars⟩
  · rw [respondStatus_out, finished_out]
    rfl

end Sys2Proof.Proofs
end

section
/-! PROOFS, family 42_compression, part 1: what one micro-operation writes and what it keeps (R120 to R124), then
`COMPRESS` (R126). -/

namespace Sys2Proof.Proofs

open Sys2Proof.Machine Sys2Proof.Laws

/-! ### The frame of a micro-operation and the places of `EXPAND` and `ROUND` (R69, R125) -/

/-- What writes the datapath and the sequencer only keeps the control state. -/
theorem sameControl_of_datapath_frame {s t : State}
    (h : t = { s with H := t.H, vars := t.vars, W := t.W, UPC := t.UPC, compressing := t.compressing }) :
    SameControl s t := by
  constructor <;> rw [h]
  case blk => exact fun _ => rfl

theorem exec_microOp_sameControl (i : Instr) {s t : State} (hi : isCommand i = false) (h : exec i s = .next t) :
    SameControl s t :=
  sameControl_of_datapath_frame (performMicroOp_frame i s t (exec_eq_performMicroOp i s hi ▸ h))

theorem microOpAt_ofNat_expand (n : Nat) (h16 : 16 ≤ n) (h : n < 64) :
    microOpAt (BitVec.ofNat 7 (n - 15)) = some (.expand (BitVec.ofNat 6 n)) := by
  obtain ⟨hop, -, -⟩ := expand_place (63 - n) (by omega)
  rwa [show 48 - (63 - n) = n - 15 by omega, show 63 - (63 - n) = n by omega] at hop

theorem microOpAt_ofNat_round (n : Nat) (h : n < 64) :
    microOpAt (BitVec.ofNat 7 (n + 50)) = some (.round (BitVec.ofNat 6 n)) := by
  obtain ⟨hop, -, -⟩ := round_place (63 - n) (by omega)
  rwa [show 113 - (63 - n) = n + 50 by omega, show 63 - (63 - n) = n by omega] at hop

/-! ### The five micro-operations -/

/-- Appending a field puts the bits before it at the next higher place. -/
theorem toNat_append_eq_mul_add {m n : Nat} (x : BitVec m) (y : BitVec n) :
    (x ++ y).toNat = x.toNat * 2 ^ n + y.toNat := by
  rw [BitVec.toNat_append, ← Nat.shiftLeft_add_eq_or_of_lt y.isLt, Nat.shiftLeft_eq]

/-- Big-endian assembly (R42) as a number. -/
theorem fromBe32_toNat (b0 b1 b2 b3 : Byte) :
    (fromBe32 b0 b1 b2 b3).toNat = b0.toNat * 2 ^ 24 + b1.toNat * 2 ^ 16 + b2.toNat * 2 ^ 8 + b3.toNat := by
  simp only [fromBe32, toNat_append_eq_mul_add]
  omega

theorem loadedW_block_lt_16 (w : Vector Word 64) (m : Memory) (i : Nat) (hi : i < 16) :
    (loadedW w m.block)[i] =
      fromBe32 (m.read (4 * i)) (m.read (4 * i + 1)) (m.read (4 * i + 2)) (m.read (4 * i + 3)) := by
  simp [loadedW, hi, block_get]

theorem loadedW_ge_16 (w : Vector Word 64) (b : Vector Byte 64) (i : Nat) (h : i < 64) (hi : 16 ≤ i) :
    (loadedW w b)[i] = w[i] := by
  simp [loadedW, Nat.not_lt.mpr hi]

theorem exec_loadw (s : State) :
    exec .loadw s = .next ({ s with W := loadedW s.W s.BLK.block } : State).nextUpc := rfl

/-- Settles O16: each loaded word is assembled from its four bytes; `loadedW` keeps the words from 16 on. -/
theorem loadwAssemblesSixteenWords : Obligations.LoadwAssemblesSixteenWords := by
  refine ⟨microOpAt_zero, fun s => ⟨_, exec_loadw s, fun i hi => ?_, fun i h hi => ?_, nextUpc_UPC _,
    nextUpc_H _, nextUpc_vars _, exec_microOp_sameControl .loadw rfl (exec_loadw s)⟩⟩
  · rw [nextUpc_W, loadedW_block_lt_16 s.W s.BLK i hi, fromBe32_toNat]
  · exact loadedW_ge_16 s.W s.BLK.block i h hi

theorem exec_expand (s : State) (n : Nat) (h16 : 16 ≤ n) (h : n < 64) :
    exec (.expand (BitVec.ofNat 6 n)) s = .next ({ s with W := expandedW s.W n h } : State).nextUpc := by
  have hle : 16#6 ≤ BitVec.ofNat 6 n := by simp [BitVec.le_def]; omega
  have hstep := performMicroOp_expand s s.W s.vars s.UPC n h16 h
  simp only [exec, performMicroOp, execExpand, if_pos hle, Host.Outcome.next.injEq] at hstep ⊢
  have hW : _ = expandedW s.W n h := congrArg State.W hstep
  rw [← hW]
  rfl

/-- Settles O17: `EXPAND` sets the one word of the recurrence. -/
theorem expandComputesOneWord : Obligations.ExpandComputesOneWord := by
  refine fun n h16 h => ⟨microOpAt_ofNat_expand n h16 h, fun s => ⟨_, exec_expand s n h16 h, ?_, fun i hi hne => ?_,
    rfl, rfl, rfl, exec_microOp_sameControl _ rfl (exec_expand s n h16 h)⟩⟩
  · exact Vector.getElem_set_self h
  · exact Vector.getElem_set_ne h hi hne.symm

/-- Settles O19: `seedVars` lists the eight words of `H`. -/
theorem seedCopiesHashState : Obligations.SeedCopiesHashState :=
  ⟨microOpAt_seed, fun _ => ⟨_, rfl, rfl, rfl, rfl, rfl, exec_microOp_sameControl .seed rfl rfl⟩⟩

theorem exec_round (s : State) (n : Nat) (h : n < 64) :
    exec (.round (BitVec.ofNat 6 n)) s = .next ({ s with vars := roundVars s.vars kRom[n] s.W[n] } : State).nextUpc := by
  have hself : (BitVec.ofNat 6 n).toNat = n := by simp; omega
  simp only [exec, execRound, kAt, State.wAt, hself]

/-- Settles O20: `roundVars` is the round of R123, with `K[n]` and `W[n]`. -/
theorem roundShiftsWorkingVariables : Obligations.RoundShiftsWorkingVariables := fun n h =>
  ⟨microOpAt_ofNat_round n h, fun s => ⟨_, exec_round s n h, rfl, rfl, rfl, rfl,
    exec_microOp_sameControl _ rfl (exec_round s n h)⟩⟩

/-- Settles O21: `foldHash` lists the eight sums. -/
theorem foldAddsWorkingVariables : Obligations.FoldAddsWorkingVariables :=
  ⟨microOpAt_fold, fun _ => ⟨_, rfl, rfl, rfl, rfl, rfl, exec_microOp_sameControl .fold rfl rfl⟩⟩

/-! ### `COMPRESS` (R126) -/

theorem compressed_sameControl (s : State) : SameControl s (compressed s) := sameControl_of_datapath_frame rfl

/-- Settles O22: `compress_eq` gives the state after `COMPRESS`, with the datapath in closed form. -/
theorem compressIsItsClosedForm : Obligations.CompressIsItsClosedForm := fun s h =>
  ⟨compressed s, compress_eq s h, rfl, rfl, rfl, rfl, compressed_sameControl s⟩

end Sys2Proof.Proofs
end

section
/-! PROOFS, family 42_compression, part 2: single steps of a compression (R125, R127). A step of a compression in progress
is a pass of the loop of `COMPRESS`, and takes the sequencer to the next place. -/

namespace Sys2Proof.Proofs

open Sys2Proof.Machine Sys2Proof.Laws

/-- A compression is in progress at place `n` of the micro-program, and no reset is next. -/
structure AtPlace (n : Nat) (s : State) : Prop where
  upc : s.UPC = BitVec.ofNat 7 n
  busy : s.compressing = true
  noReset : NoResetNext s

theorem isCommand_of_microOpAt (p : BitVec 7) (i : Instr) (h : microOpAt p = some i) : isCommand i = false := by
  obtain ⟨u, -, hd⟩ := uromAt_of_microOpAt p i h
  exact decodeMicroOp_isCommand u i hd

/-- A step of a compression in progress is the pass of the loop of R125. -/
theorem AtPlace.step_eq_microStep {n : Nat} {s : State} (hs : AtPlace n s) : step s = microStep s := by
  cases hi : microOpAt s.UPC with
  | none => simp only [step_noMicroOp s hs.busy hs.noReset hi, microStep, hi]
  | some i =>
    rw [step_microOp s i hs.busy hs.noReset hi, microStep_of s i hi,
      exec_eq_performMicroOp i s (isCommand_of_microOpAt s.UPC i hi)]

theorem AtPlace.upc_eq_last_iff {n : Nat} {s : State} (hs : AtPlace n s) (hn : n ≤ 114) : s.UPC = 114#7 ↔ n = 114 := by
  rw [hs.upc, ← BitVec.toNat_inj, BitVec.toNat_ofNat, BitVec.toNat_ofNat]
  omega

theorem AtPlace.upc_le_last {n : Nat} {s : State} (hs : AtPlace n s) (hn : n ≤ 114) : s.UPC ≤ 114#7 := by
  rw [hs.upc, BitVec.le_def, BitVec.toNat_ofNat, BitVec.toNat_ofNat]
  omega

/-- A pass before the last one takes the sequencer to the next place (R127). -/
theorem AtPlace.microStep_succ {n : Nat} {s : State} (hs : AtPlace n s) (hn : n < 114) :
    ∃ t, microStep s = .next t ∧ AtPlace (n + 1) t := by
  obtain ⟨t, ht, hupc, hc⟩ := microStep_next s (hs.upc_le_last hn.le)
  have hlast : s.UPC ≠ 114#7 := (hs.upc_eq_last_iff hn.le).not.mpr hn.ne
  refine ⟨t, ht, ?_, ?_, ?_⟩
  · rw [hupc, if_neg hlast, hs.upc, BitVec.ofNat_add]
  · rw [hc, if_neg hlast, hs.busy]
  · rw [NoResetNext, (microStep_silent s t ht).port]
    exact hs.noReset

theorem run_succ {s t : State} (k : Nat) (h : step s = .next t) :
    Host.Core.run core (k + 1) s = Host.Core.run core k t := by
  have hstep : core.step s = .next t := h
  simp only [Host.Core.run, hstep]

/-- Steps that stay inside the micro-program take the sequencer on by one place each. -/
theorem AtPlace.run {n : Nat} {s : State} (d : Nat) (hs : AtPlace n s) (hn : n + d ≤ 114) :
    ∃ t : State, Host.Core.run core d s = .next t ∧ AtPlace (n + d) t := by
  induction d generalizing n s with
  | zero => exact ⟨s, rfl, hs⟩
  | succ d ih =>
    obtain ⟨t, ht, hat⟩ := hs.microStep_succ (by omega)
    rw [run_succ d (hs.step_eq_microStep.trans ht), Nat.add_comm d, ← Nat.add_assoc]
    exact ih hat (by omega)

/-- The steps of the rest of a compression are the rest of the loop of `COMPRESS`. -/
theorem AtPlace.run_eq_microLoop {n : Nat} {s : State} (d : Nat) (hs : AtPlace n s) (hn : n + d = 114) :
    Host.Core.run core (d + 1) s = microLoop (d + 1) s := by
  induction d generalizing n s with
  | zero =>
    obtain ⟨t, ht, -⟩ := microStep_next s (hs.upc_le_last hn.le)
    have hlast : s.UPC = 114#7 := (hs.upc_eq_last_iff hn.le).mpr hn
    rw [run_succ 0 (hs.step_eq_microStep.trans ht), microLoop_succ, ht, andThen_next, if_pos hlast]
    rfl
  | succ d ih =>
    obtain ⟨t, ht, hat⟩ := hs.microStep_succ (by omega)
    have hlast : s.UPC ≠ 114#7 := (hs.upc_eq_last_iff (by omega)).not.mpr (by omega)
    rw [run_succ (d + 1) (hs.step_eq_microStep.trans ht), microLoop_succ, ht, andThen_next, if_neg hlast]
    exact ih hat (by omega)

/-- Settles O23: the walk by `AtPlace.run`; the whole run is the loop of `COMPRESS`, whose last state is `compressed`. -/
theorem stepsWalkTheMicroProgram : Obligations.StepsWalkTheMicroProgram := by
  intro s hc hu hp
  have hs : AtPlace 0 s := ⟨hu, hc, hp⟩
  have hstart : ({ s with compressing := true } : State) = s := by rw [← hc]
  have hrun : Host.Core.run core 115 s = compress s := by rw [compress, hstart, hs.run_eq_microLoop 114 rfl]
  refine ⟨fun n hn => ?_, hrun, compressed s, hrun.trans (compress_eq s hu), rfl, rfl⟩
  obtain ⟨t, ht, hat⟩ := hs.run n (by omega)
  rw [Nat.zero_add] at hat
  exact ⟨t, ht, hat.upc, hat.busy⟩

end Sys2Proof.Proofs
end

section
/-! PROOFS, family 43_readout_commands: the read-out and inspection commands (R140 to R144) and the hexadecimal
serialisation (R145, R146). First an equation of `exec` per command and branch, then what the answered word is. -/

namespace Sys2Proof.Proofs

open Sys2Proof.Machine Sys2Proof.Laws

/-! ### The read-out of the whole digest (R144, R49) -/

/-- Settles O37: the sixteen read-outs succeed by `rdx_succeeds`, and `quadResponses_spell` says what they spell. -/
theorem sixteenRdxSpellTheDigest : Obligations.SixteenRdxSpellTheDigest := by
  intro s hd
  have hread := rdx_succeeds ((List.range 16).map (BitVec.ofNat 4)) s hd
  rw [List.map_map] at hread
  exact ⟨_, hread.run, hread.faultless, quadResponses_spell s.H⟩

/-! ### `NOP` and `RDST` (R140, R141) -/

theorem decodeCommand_eq_nop_iff (c : BitVec 32) : decodeCommand c = .ok .nop ↔ c = 0x00000000#32 := by
  rw [formatZ_row c 0x00#8 (i := .nop) rfl rfl, BitVec.and_allOnes]
  rfl

theorem decodeCommand_eq_rdst_iff (c : BitVec 32) : decodeCommand c = .ok .rdst ↔ c = 0x20000000#32 := by
  rw [formatZ_row c 0x20#8 (i := .rdst) rfl rfl, BitVec.and_allOnes]
  rfl

/-- Settles O32: both words are their whole format, and both commands are one answer of the status. -/
theorem nopAndRdstAnswerStatus : Obligations.NopAndRdstAnswerStatus :=
  ⟨fun c _ => decodeCommand_eq_nop_iff c, fun c _ => decodeCommand_eq_rdst_iff c, fun _ => ⟨rfl, rfl⟩⟩

/-! ### `RDLEN` (R142) -/

theorem exec_rdlen {idx : BitVec 4} (h : idx ≤ 1#4) (s : State) :
    exec (.rdlen idx) s = .next (s.respond false (lenHalf s.LEN (idx == 1#4))) := if_pos h

theorem exec_rdlen_of_not_le {idx : BitVec 4} (h : ¬ idx ≤ 1#4) (s : State) :
    exec (.rdlen idx) s = .next (raise .illegalCmd s) := if_neg h

theorem lenHalf_low_toNat (len : BitVec 64) : (lenHalf len false).toNat = len.toNat % 2 ^ 32 :=
  BitVec.extractLsb'_toNat 0 32 len

theorem lenHalf_high_toNat (len : BitVec 64) : (lenHalf len true).toNat = len.toNat / 2 ^ 32 := by
  have hlt : len.toNat / 2 ^ 32 < 2 ^ 32 := by omega
  calc (lenHalf len true).toNat
    _ = (len.toNat >>> 32) % 2 ^ 32 := BitVec.extractLsb'_toNat 32 32 len
    _ = len.toNat / 2 ^ 32 := by rw [Nat.shiftRight_eq_div_pow, Nat.mod_eq_of_lt hlt]

/-- The bits from `n` on of a number below `2 ^ n` are 0. -/
theorem extractLsb'_eq_zero_of_lt {w : Nat} (x : BitVec w) (n k : Nat) (h : x.toNat < 2 ^ n) :
    x.extractLsb' n k = 0#k := by
  rw [BitVec.extractLsb', Nat.shiftRight_eq_div_pow, Nat.div_eq_of_lt h]

/-- Settles O33: each half by its value, the top bits by the bound on `LEN` of the invariant (R28 I3). -/
theorem rdlenAnswersHalfOfLen : Obligations.RdlenAnswersHalfOfLen := by
  intro s
  exact ⟨⟨_, exec_rdlen (by decide) s, lenHalf_low_toNat s.LEN⟩,
    ⟨_, exec_rdlen (by decide) s, lenHalf_high_toNat s.LEN⟩, fun idx hidx => exec_rdlen_of_not_le (by bv_omega) s,
    fun hinv => extractLsb'_eq_zero_of_lt s.LEN 61 3 hinv.lenBound⟩

/-! ### `RDH` (R143) -/

theorem exec_rdh_done {idx : BitVec 4} {s : State} (h : idx ≤ 7#4) (hd : s.MODE = .done) :
    exec (.rdh idx) s = .next (s.respond false (s.hAt (idx.setWidth 3))) :=
  (if_pos h).trans (if_pos hd)

theorem exec_rdh_of_not_done {idx : BitVec 4} {s : State} (h : idx ≤ 7#4) (hd : s.MODE ≠ .done) :
    exec (.rdh idx) s = .next (raise .badState s) :=
  (if_pos h).trans (if_neg hd)

theorem exec_rdh_of_not_le {idx : BitVec 4} (h : ¬ idx ≤ 7#4) (s : State) :
    exec (.rdh idx) s = .next (raise .illegalCmd s) := if_neg h

theorem hAt_ofNat (s : State) (n : Nat) (h : n < 8) : s.hAt ((BitVec.ofNat 4 n).setWidth 3) = s.H[n] := by
  have hn : ((BitVec.ofNat 4 n).setWidth 3).toNat = n := by
    rw [BitVec.toNat_setWidth, BitVec.toNat_ofNat]; omega
  simp only [State.hAt, hn]

/-- Settles O34: the index is tested before the mode, so an index up to 7 leaves the two outcomes of the mode. -/
theorem rdhAnswersDigestWord : Obligations.RdhAnswersDigestWord := by
  intro s
  refine ⟨fun n h hd => ?_, fun idx hidx hd => exec_rdh_of_not_done (by bv_omega) hd,
    fun idx hidx => exec_rdh_of_not_le (by bv_omega) s⟩
  have hle : BitVec.ofNat 4 n ≤ 7#4 := by bv_omega
  rw [exec_rdh_done hle hd, hAt_ofNat s n h]
  rfl

/-! ### The hexadecimal serialisation (R145, R146) -/

theorem hexser_getElem (h : Vector Word 8) (k : Nat) (hk : k < 64) :
    (hexser h)[k] = hexdigit (nibble h[k / 8] (k % 8)) :=
  Vector.getElem_ofFn hk

/-- The nibbles of a word are its hexadecimal digits, the most significant first. -/
theorem nibble_eq_ofNat (w : Word) (n : Nat) (hn : n < 8) : nibble w n = BitVec.ofNat 4 (w.toNat / 16 ^ (7 - n)) := by
  rw [nibble, BitVec.extractLsb', Nat.shiftRight_eq_div_pow, show 28 - 4 * n = 4 * (7 - n) by omega,
    show (16 : Nat) = 2 ^ 4 from rfl, ← pow_mul]

/-- Settles O36: the sixteen codes are evaluated; a character is the digit of its nibble, which is a quotient. -/
theorem hexSerialisation : Obligations.HexSerialisation := by
  refine ⟨by decide, fun h k hk => ?_⟩
  rw [hexser_getElem h k hk, nibble_eq_ofNat _ _ (Nat.mod_lt k (by decide))]

/-! ### `RDX` (R144) -/

theorem exec_rdx_done {idx : BitVec 4} {s : State} (hd : s.MODE = .done) :
    exec (.rdx idx) s = .next (s.respond false (hexQuad s.H idx)) := if_pos hd

theorem exec_rdx_of_not_done {idx : BitVec 4} {s : State} (hd : s.MODE ≠ .done) :
    exec (.rdx idx) s = .next (raise .badState s) := if_neg hd

/-- Byte `k` of four assembled bytes, counted from bit 31 down. -/
theorem extractLsb'_fromBe32 (b0 b1 b2 b3 : Byte) (k : Nat) (hk : k < 4) :
    (fromBe32 b0 b1 b2 b3).extractLsb' (24 - 8 * k) 8 = [b0, b1, b2, b3][k] := by
  obtain ⟨h0, h1, h2, h3⟩ := (format2_iff (fromBe32 b0 b1 b2 b3) b0 b1 b2 b3).mp rfl
  match k, hk with
  | 0, _ => exact h0
  | 1, _ => exact h1
  | 2, _ => exact h2
  | 3, _ => exact h3

/-- Byte `k` of `RDX n`, counted from bit 31 down, is character `4n + k`. -/
theorem extractLsb'_hexQuad (h : Vector Word 8) (n k : Nat) (hn : n < 16) (hk : k < 4) :
    (hexQuad h (BitVec.ofNat 4 n)).extractLsb' (24 - 8 * k) 8 = (hexser h)[4 * n + k] := by
  have hidx : (BitVec.ofNat 4 n).toNat = n := by rw [BitVec.toNat_ofNat, Nat.mod_eq_of_lt hn]
  simp only [hexQuad, extractLsb'_fromBe32 _ _ _ _ k hk, hidx]
  match k, hk with
  | 0, _ | 1, _ | 2, _ | 3, _ => rfl

/-- The characters of `RDX n` are digits of word `n div 2`: its upper half for even `n`, its lower half for odd `n`. -/
theorem hexser_quad_getElem (h : Vector Word 8) (n k : Nat) (hn : n < 16) (hk : k < 4) :
    (hexser h)[4 * n + k] = hexdigit (nibble h[n / 2] (4 * (n % 2) + k)) := by
  have hword : (4 * n + k) / 8 = n / 2 := by omega
  have hnibble : (4 * n + k) % 8 = 4 * (n % 2) + k := by omega
  simp only [hexser_getElem, hword, hnibble]

/-- Settles O35: the answered word is four characters of the serialisation, and their digits follow from their places. -/
theorem rdxAnswersFourCharacters : Obligations.RdxAnswersFourCharacters := by
  intro n hn s
  refine ⟨fun hd => ⟨_, exec_rdx_done hd, fun k hk => ?_⟩, exec_rdx_of_not_done⟩
  have hchar := extractLsb'_hexQuad s.H n k hn hk
  exact ⟨hchar, hchar.trans (hexser_quad_getElem s.H n k hn hk)⟩

end Sys2Proof.Proofs
end

section
/-! PROOFS, family 60_exceptions: the command faults, the modes, and the way into and out of each mode (R160 to R172).
First the fault entry; then the inversion `command_outcome`, which says once how a legal command can end, in any state.
The statements about modes and faults are read off from it. -/

namespace Sys2Proof.Proofs

open Sys2Proof.Machine Sys2Proof.Laws

/-! ### The fault entry (R160, R161, R165) -/

theorem raise_sameData (c : Cause) (s : State) : SameData s (raise c s) :=
  ⟨raise_H s c, raise_vars s c, raise_W s c, fun _ => by rw [raise_BLK], raise_LEN s c, raise_UPC s c,
    raise_compressing s c, raise_cfg s c, raise_port s c, raise_resets s c⟩

theorem raise_ERRCODE_of_ne_error {s : State} (c : Cause) (hm : s.MODE ≠ .error) : (raise c s).ERRCODE = c.code := by
  rw [raise_ERRCODE, if_neg hm]

theorem raise_ERRCODE_of_error {s : State} (c : Cause) (hm : s.MODE = .error) : (raise c s).ERRCODE = s.ERRCODE := by
  rw [raise_ERRCODE, if_pos hm]

/-- In ERROR mode the fault entry is its response and nothing else (R168). -/
theorem raise_of_error {s : State} (c : Cause) (hm : s.MODE = .error) :
    raise c s = { s with out := s.out ++ [⟨true, c.code.setWidth 32⟩] } := by
  rw [raise, if_pos hm, ← hm]
  rfl

/-- The response names the cause, so two fault entries of one state are the same entry. -/
theorem raise_injective (s : State) {c c' : Cause} (h : raise c s = raise c' s) : c = c' := by
  have hout := congrArg State.out h
  simp only [raise_out, List.append_cancel_left_eq, List.cons.injEq, Response.mk.injEq, true_and, and_true] at hout
  revert hout
  cases c <;> cases c' <;> decide

/-- The fault bit tells a fault entry from an answer. -/
theorem raise_ne_respond (c : Cause) (s : State) (d : Word) : raise c s ≠ s.respond false d := by
  intro h
  have hout := congrArg State.out h
  simp [State.respond] at hout

/-- Settles O39: the four numbers, and the fault entry field by field. -/
theorem faultEntry : Obligations.FaultEntry :=
  ⟨rfl, rfl, rfl, rfl, fun c s => ⟨raise_ERRCODE_of_ne_error c, raise_ERRCODE_of_error c, raise_MODE s c, raise_out s c,
    raise_sameData c s⟩⟩

/-- Settles O40: the step on a word that does not decode looks at nothing but the word. -/
theorem illegalWordFaultsInEveryMode : Obligations.IllegalWordFaultsInEveryMode :=
  fun s c r rest hc hp hd => step_illegal s c r rest hc hp hd

/-! ### A push that is not admitted (R163, R164, R166) -/

theorem admission_cause {n : Nat} {s : State} {c : Cause} (h : admission n s = some c) :
    c = .tooLarge ∨ c = .lenOverflow := by
  rw [admission] at h
  split_ifs at h <;> cases h
  · exact .inl rfl
  · exact .inr rfl

theorem exec_push_not_admitted {i : Instr} {s : State} {c : Cause} (hb : messageBytes i ≠ []) (hm : s.MODE = .absorb)
    (ha : admission (messageBytes i).length s = some c) : exec i s = .next (raise c s) := by
  rw [exec_eq_pushAll hb, pushAll, requireMode, if_pos hm]
  simp only [ha]

/-- Settles O31: the admission check answers before any byte is absorbed, and has two causes. -/
theorem pushNotAdmittedFaults : Obligations.PushNotAdmittedFaults := fun _ _ _ hb hm ha =>
  ⟨exec_push_not_admitted hb hm ha, admission_cause ha⟩

/-! ### Absorbing keeps the mode, in any state -/

theorem microLoop_MODE (n : Nat) (s t : State) (h : microLoop n s = .next t) : t.MODE = s.MODE := by
  induction n generalizing s with
  | zero =>
    rw [microLoop_zero, Host.Outcome.next.injEq] at h
    rw [h]
  | succ n ih =>
    obtain ⟨u, hu, ht⟩ := (andThen_eq_next ..).mp (microLoop_succ n s ▸ h)
    have hmode : u.MODE = s.MODE := (sameControl_of_datapath_frame (microStep_frame s u hu)).mode
    rw [← hmode]
    split at ht
    · rw [Host.Outcome.next.injEq] at ht
      rw [ht]
    · exact ih u ht

theorem compress_MODE (s t : State) (h : compress s = .next t) : t.MODE = s.MODE :=
  microLoop_MODE 115 { s with compressing := true } t h

theorem absorb_MODE (b : Byte) (s t : State) (h : absorb b s = .next t) : t.MODE = s.MODE := by
  simp only [absorb] at h
  split at h
  · exact (compress_MODE _ t h).trans rfl
  · rw [Host.Outcome.next.injEq] at h
    rw [← h]
    rfl

theorem absorbAll_MODE (bs : List Byte) (s t : State) (h : absorbAll bs s = .next t) : t.MODE = s.MODE := by
  induction bs generalizing s with
  | nil =>
    rw [absorbAll, Host.Outcome.next.injEq] at h
    rw [h]
  | cons b rest ih =>
    obtain ⟨u, hu, ht⟩ := (andThen_eq_next ..).mp h
    exact (ih u ht).trans (absorb_MODE b s u hu)

/-! ### How a legal command ends (R162) -/

theorem exec_not_permitted {i : Instr} {s : State} (hi : isCommand i = true) (hwf : i.wf = true)
    (hp : permitted i s.MODE = false) : exec i s = .next (raise .badState s) := by
  cases i with
  | nop | init | rdst | rdlen _ => simp [permitted] at hp
  | final | push1 _ | push2 _ _ | push3 _ _ _ => exact if_neg (by simpa [permitted] using hp)
  | rdh idx => exact exec_rdh_of_not_done (of_decide_eq_true hwf) (by simpa [permitted] using hp)
  | rdx idx => exact exec_rdx_of_not_done (by simpa [permitted] using hp)
  | loadw | expand _ | seed | round _ | fold => simp [isCommand] at hi

/-- A permitted command that is neither `INIT` nor `FINAL` nor a push answers a word and writes nothing else (R49). -/
theorem exec_read {i : Instr} {s : State} (hi : isCommand i = true) (hwf : i.wf = true)
    (hp : permitted i s.MODE = true) (hb : messageBytes i = []) (hinit : i ≠ .init) (hfinal : i ≠ .final) :
    ∃ d, exec i s = .next (s.respond false d) := by
  cases i with
  | nop | rdst => exact ⟨_, rfl⟩
  | rdlen idx => exact ⟨_, exec_rdlen (of_decide_eq_true hwf) s⟩
  | rdh idx => exact ⟨_, exec_rdh_done (of_decide_eq_true hwf) (by simpa [permitted] using hp)⟩
  | rdx idx => exact ⟨_, exec_rdx_done (by simpa [permitted] using hp)⟩
  | init => exact absurd rfl hinit
  | final => exact absurd rfl hfinal
  | push1 _ | push2 _ _ | push3 _ _ _ => simp [messageBytes] at hb
  | loadw | expand _ | seed | round _ | fold => simp [isCommand] at hi

theorem permitted_push_iff {i : Instr} (hb : messageBytes i ≠ []) (m : Mode) : permitted i m = true ↔ m = .absorb := by
  cases i with
  | push1 _ | push2 _ _ | push3 _ _ _ => simp [permitted]
  | nop | init | final | rdst | rdlen _ | rdh _ | rdx _ | loadw | expand _ | seed | round _ | fold =>
    exact absurd rfl hb

theorem exec_admitted_push_MODE {i : Instr} {s t : State} (hb : messageBytes i ≠ []) (hm : s.MODE = .absorb)
    (ha : admission (messageBytes i).length s = none) (h : exec i s = .next t) : t.MODE = .absorb := by
  rw [exec_eq_pushAll hb, pushAll, requireMode, if_pos hm] at h
  simp only [ha, andThen_eq_next, Host.Outcome.next.injEq] at h
  obtain ⟨u, hu, rfl⟩ := h
  exact (absorbAll_MODE _ s u hu).trans hm

theorem exec_final_MODE {s t : State} (hm : s.MODE = .absorb) (h : exec .final s = .next t) : t.MODE = .done := by
  rw [exec, execFinal, requireMode, if_pos hm] at h
  simp only [andThen_eq_next, Host.Outcome.next.injEq] at h
  obtain ⟨-, -, -, -, rfl⟩ := h
  rfl

/-- How a legal command from `s` to `t` can end. -/
inductive CommandOutcome (i : Instr) (s t : State) : Prop
  /-- The mode does not permit it (R162). -/
  | notPermitted (hp : permitted i s.MODE = false) (ht : t = raise .badState s)
  /-- A push that the admission check refuses (R163, R164). -/
  | notAdmitted (c : Cause) (hm : s.MODE = .absorb) (hb : messageBytes i ≠ [])
      (ha : admission (messageBytes i).length s = some c) (ht : t = raise c s)
  /-- An admitted push (R104 to R106). -/
  | pushed (hm : s.MODE = .absorb) (hb : messageBytes i ≠ []) (ha : admission (messageBytes i).length s = none)
      (ht : t.MODE = .absorb)
  /-- `INIT` (R100). -/
  | opened (hi : i = .init) (ht : t = (openMessage s).respondStatus)
  /-- A successful `FINAL` (R107). -/
  | finished (hi : i = .final) (hm : s.MODE = .absorb) (ht : t.MODE = .done)
  /-- A read-out or inspection (R49). -/
  | answered (d : Word) (hp : permitted i s.MODE = true) (hb : messageBytes i = []) (hinit : i ≠ .init)
      (hfinal : i ≠ .final) (ht : t = s.respond false d)

theorem command_outcome {i : Instr} {s t : State} (hi : isCommand i = true) (hwf : i.wf = true)
    (h : exec i s = .next t) : CommandOutcome i s t := by
  cases hp : permitted i s.MODE with
  | false =>
    rw [exec_not_permitted hi hwf hp, Host.Outcome.next.injEq] at h
    exact .notPermitted hp h.symm
  | true =>
    by_cases hb : messageBytes i = []
    · by_cases hinit : i = .init
      · rw [hinit, exec, execInit, Host.Outcome.next.injEq] at h
        exact .opened hinit h.symm
      by_cases hfinal : i = .final
      · subst hfinal
        have hm : s.MODE = .absorb := by simpa [permitted] using hp
        exact .finished rfl hm (exec_final_MODE hm h)
      · obtain ⟨d, hd⟩ := exec_read hi hwf hp hb hinit hfinal
        rw [hd, Host.Outcome.next.injEq] at h
        exact .answered d hp hb hinit hfinal h.symm
    · have hm : s.MODE = .absorb := (permitted_push_iff hb _).mp hp
      cases ha : admission (messageBytes i).length s with
      | none => exact .pushed hm hb ha (exec_admitted_push_MODE hb hm ha h)
      | some c =>
        rw [exec_push_not_admitted hb hm ha, Host.Outcome.next.injEq] at h
        exact .notAdmitted c hm hb ha h.symm

/-! ### The permission table (R162) -/

/-- A permitted command has another outcome than BAD_STATE: its mode is not ERROR, its cause another, or its answer
without the fault bit. -/
theorem exec_permitted_ne_badState {i : Instr} {s : State} (hi : isCommand i = true) (hwf : i.wf = true)
    (hp : permitted i s.MODE = true) : exec i s ≠ .next (raise .badState s) := by
  intro h
  cases command_outcome hi hwf h with
  | notPermitted hp' _ => simp [hp] at hp'
  | notAdmitted c _ _ ha ht => cases raise_injective s ht; simpa using admission_cause ha
  | pushed _ _ _ ht => simp at ht
  | opened _ ht => simpa using congrArg State.MODE ht
  | finished _ _ ht => simp at ht
  | answered d _ _ _ _ ht => exact raise_ne_respond .badState s d ht

/-- Settles O38: the table row by row, then the outcome of a command on each side of it. -/
theorem permissionTable : Obligations.PermissionTable := by
  refine ⟨fun m => ?_, fun i s hi hwf => ⟨exec_not_permitted hi hwf, exec_permitted_ne_badState hi hwf⟩⟩
  exact ⟨rfl, rfl, rfl, fun _ => rfl, beq_iff_eq, fun _ => beq_iff_eq, fun _ _ => beq_iff_eq, fun _ _ _ => beq_iff_eq,
    fun _ => beq_iff_eq, fun _ => beq_iff_eq⟩

/-! ### ERROR mode (R168) -/

/-- What ERROR mode permits, `INIT` apart, carries no bytes and is not `FINAL`. -/
theorem bytes_eq_nil_of_permitted_error {i : Instr} (hp : permitted i .error = true) :
    messageBytes i = [] ∧ i ≠ .final := by
  refine ⟨?_, by rintro rfl; simp [permitted] at hp⟩
  by_contra hb
  simpa using (permitted_push_iff hb .error).mp hp

/-- Settles O41: in ERROR mode a permitted command but `INIT` is an answer, and a fault entry is its response. -/
theorem errorModeAnswersEverything : Obligations.ErrorModeAnswersEverything := by
  intro s hm
  refine ⟨fun i hi hwf hinit => ⟨fun hp => ?_, fun hp => ?_⟩, ⟨_, exec_init s, rfl, rfl⟩, fun c r rest hc hport hd => ?_⟩
  · obtain ⟨hb, hfinal⟩ := bytes_eq_nil_of_permitted_error hp
    exact exec_read hi hwf (hm ▸ hp) hb hinit hfinal
  · rw [exec_not_permitted hi hwf (hm ▸ hp), raise_of_error .badState hm]
    rfl
  · rw [step_illegal s c r rest hc hport hd, raise_of_error .illegalCmd (by exact hm)]
    rfl

/-! ### The mode table (R172) -/

/-- Settles O42: the rows of the mode table are the ways a command can end. -/
theorem modeTable : Obligations.ModeTable := by
  intro i s t hi hwf h
  cases command_outcome hi hwf h with
  | notPermitted hp ht => simp [modeAfter, hp, ht]
  | notAdmitted c hm hb ha ht => simp [modeAfter, hb, ha, ht]
  | pushed hm hb ha ht =>
    have hinit : i ≠ .init := by rintro rfl; exact hb rfl
    have hfinal : i ≠ .final := by rintro rfl; exact hb rfl
    simp [modeAfter, (permitted_push_iff hb .absorb).mpr rfl, ha, hinit, hfinal, hm, ht]
  | opened hi ht => simp [modeAfter, hi, ht, permitted, messageBytes]
  | finished hi hm ht => simp [modeAfter, hi, hm, ht, permitted, messageBytes]
  | answered d hp hb hinit hfinal ht => simp [modeAfter, hp, hb, hinit, hfinal, ht]

/-! ### The ways into and out of a mode (R167, R172) -/

theorem decodeCommand_eq_final_iff (c : BitVec 32) : decodeCommand c = .ok .final ↔ c = 0x02000000#32 := by
  rw [formatZ_row c 0x02#8 (i := .final) rfl rfl, BitVec.and_allOnes]
  rfl

theorem decoded_outcome {c : BitVec 32} {i : Instr} {s t : State} (hd : decodeCommand c = .ok i)
    (h : exec i s = .next t) : CommandOutcome i s t :=
  command_outcome (decodeCommand_isCommand c i hd) (encode_of_decodeCommand hd).1 h

theorem microOp_step_MODE {i : Instr} {s t : State} (hi : microOpAt s.UPC = some i) (h : exec i s = .next t) :
    t.MODE = s.MODE :=
  (exec_microOp_sameControl i (isCommand_of_microOpAt s.UPC i hi) h).mode

/-- What a step does to the mode: it keeps it, or one of the four changes of R172 with its reason. -/
inductive ModeChange (s t : State) : Prop
  | kept (ht : t.MODE = s.MODE)
  | reset (rest : List HostInput) (hp : s.port = .reset :: rest) (ht : t.MODE = .idle)
  | faulted (ht : t.MODE = .error)
  | opened (rest : List HostInput) (hp : s.port = .word 0x01000000#32 :: rest)
      (ht : t = (openMessage { s with port := rest }).respondStatus)
  | finished (rest : List HostInput) (hp : s.port = .word 0x02000000#32 :: rest) (hm : s.MODE = .absorb)
      (h : exec .final { s with port := rest } = .next t) (ht : t.MODE = .done)

theorem step_modeChange {s t : State} (h : step s = .next t) : ModeChange s t := by
  cases step_transition s t h with
  | wait _ _ ht => exact .kept (by rw [ht])
  | reset rest hp ht => exact .reset rest hp (by rw [ht]; rfl)
  | microOp i _ _ hi ht => exact .kept (microOp_step_MODE hi ht)
  | illegal c e rest _ _ _ ht => exact .faulted (by rw [ht]; rfl)
  | command c i rest _ hp hd hexec =>
    cases decoded_outcome hd hexec with
    | notPermitted _ ht => exact .faulted (by rw [ht]; rfl)
    | notAdmitted c _ _ _ ht => exact .faulted (by rw [ht]; rfl)
    | pushed hm _ _ ht => exact .kept (ht.trans hm.symm)
    | opened hi ht =>
      subst hi
      exact .opened rest ((decodeCommand_eq_init_iff c).mp hd ▸ hp) ht
    | finished hi hm ht =>
      subst hi
      exact .finished rest ((decodeCommand_eq_final_iff c).mp hd ▸ hp) hm hexec ht
    | answered d _ _ _ _ ht => exact .kept (by rw [ht]; rfl)

/-- Settles O43: of the changes of the mode, reset alone ends in IDLE and `FINAL` alone in DONE. -/
theorem idleByResetAndDoneByFinalOnly : Obligations.IdleByResetAndDoneByFinalOnly := by
  intro s t h
  cases step_modeChange h with
  | kept ht => exact ⟨fun hm => .inl (ht ▸ hm), fun hm => .inl (ht ▸ hm)⟩
  | reset rest hp ht => exact ⟨fun _ => .inr ⟨rest, hp⟩, fun hm => by simp [ht] at hm⟩
  | faulted ht => simp [ht]
  | opened rest hp ht => simp [ht]
  | finished rest hp hm hexec ht => exact ⟨fun hm' => by simp [ht] at hm', fun _ => .inr ⟨rest, hp, hm, hexec⟩⟩

/-- Settles O44: of the changes of the mode, reset and `INIT` alone start in ERROR and end elsewhere. -/
theorem errorLeftByInitOrResetOnly : Obligations.ErrorLeftByInitOrResetOnly := by
  intro s t hs h hne
  cases step_modeChange h with
  | kept ht => exact absurd (ht.trans hs) hne
  | reset rest hp ht => exact .inl ⟨ht, rest, hp⟩
  | faulted ht => exact absurd ht hne
  | opened rest hp ht => subst ht; exact .inr ⟨rfl, ⟨rest, hp⟩, rfl, rfl, rfl⟩
  | finished rest hp hm _ _ => simp [hs] at hm

/-! ### Faults are precise (R165, R169) -/

theorem effect_of_fault_response {e : Effect} {s : State} (h : (e.response s).F = true) : ∃ c, e = .fault c := by
  cases e with
  | fault c => exact ⟨c, rfl⟩
  | answer _ | start | push _ | finish => simp [Effect.response] at h

/-- Settles O45: the one response of a command is that of its effect, and only the fault entry sets the fault bit. -/
theorem faultsArePrecise : Obligations.FaultsArePrecise := by
  intro i s t d hs hi h hout
  rw [exec_eq_apply i s hi hs, Host.Outcome.next.injEq] at h
  subst h
  rw [apply_out _ hs, List.append_cancel_left_eq, List.singleton_inj] at hout
  obtain ⟨c, hc⟩ := effect_of_fault_response (congrArg Response.F hout)
  rw [hc]
  exact ⟨raise_sameData c s, raise_MODE s c, raise_ERRCODE_of_error c⟩

end Sys2Proof.Proofs
end

section
/-! PROOFS, family 70_reset_and_hazards: the reset input (R190), and that the engine cannot hang (R197). -/

namespace Sys2Proof.Proofs

open Sys2Proof.Machine Sys2Proof.Laws

theorem resetEvent_between (s : State) : (resetEvent s).Between := ⟨resetEvent_UPC s, resetEvent_compressing s⟩

/-- Settles O47, by what is next at the port: nothing, the reset input, or a word, which completes between commands. -/
theorem stepNeverStopsBetweenCommands : Obligations.StepNeverStopsBetweenCommands := by
  intro s hs
  match hp : s.port with
  | [] => exact ⟨s, step_wait s hs.idleSequencer hp, hs⟩
  | .reset :: rest => exact ⟨_, step_reset s rest hp, resetEvent_between _⟩
  | .word c :: rest =>
    obtain ⟨t, _, hstep, _, _, hbetween, _⟩ := everyWordGetsOneResponse s c rest hs hp
    exact ⟨t, hstep, hbetween⟩

/-- Settles O14: with reset next, the step is the reset event, from any state. -/
theorem resetInputEntersIdle : Obligations.ResetInputEntersIdle := fun s rest hp =>
  ⟨_, step_reset s rest hp, resetEvent_MODE _, resetEvent_ERRCODE _, resetEvent_LEN _, resetEvent_UPC _,
    resetEvent_compressing _, resetEvent_cfg _, resetEvent_out _, resetEvent_port _⟩

end Sys2Proof.Proofs
end

section
/-! PROOFS, family other: words written out in full. A legal word is the encoding of a well-formed instruction (R66, R68);
an illegal one is rejected by a rule for its ground of R65. -/

namespace Sys2Proof.Proofs

/-! ### The three grounds of R65 -/

theorem decodeCommand_of_unassigned_opcode {c : BitVec 32}
    (h : opcodeOf c ∉ [0x00#8, 0x01#8, 0x02#8, 0x11#8, 0x12#8, 0x13#8, 0x20#8, 0x21#8, 0x22#8, 0x23#8]) :
    decodeCommand c = .error .unassignedOpcode := by
  simp only [List.mem_cons, List.not_mem_nil, or_false, not_or] at h
  simp [decodeCommand, h]

theorem decodeZ_of_reserved_ne_zero (c : BitVec 32) (i : Instr) (hr : c.extractLsb' 0 24 ≠ 0#24) :
    decodeZ c i = .error .reservedBits :=
  if_neg hr

theorem decodeX_of_index_above_bound (c : BitVec 32) (bound : BitVec 4) (mk : BitVec 4 → Instr)
    (hr : c.extractLsb' 4 20 = 0#20) (hx : ¬c.extractLsb' 0 4 ≤ bound) :
    decodeX c bound mk = .error .indexAboveBound := by
  rw [decodeX, if_pos hr, if_neg hx]

/-- Settles O6: a legal word is what the encoder writes for its instruction; each illegal word has one defect. -/
theorem writtenOutWordsDecode : Obligations.WrittenOutWordsDecode := by
  have hreserved : decodeCommand 0x00ffffff#32 = .error .reservedBits :=
    decodeZ_of_reserved_ne_zero 0x00ffffff#32 .nop (by decide)
  have hopcode : decodeCommand 0x10610000#32 = .error .unassignedOpcode :=
    decodeCommand_of_unassigned_opcode (by decide)
  have hindex : decodeCommand 0x2200000f#32 = .error .indexAboveBound :=
    decodeX_of_index_above_bound 0x2200000f#32 7#4 .rdh (by decide) (by decide)
  refine ⟨?nop, ?init, ?final, ?push1, ?push2, ?push3, ?rdst, ?rdlen, ?rdh, ?rdx, ?loadw, ?expand, ?seed, ?round, ?fold,
    hreserved, hopcode, hindex⟩
  case nop | init | final | push1 | push2 | push3 | rdst | rdlen | rdh | rdx =>
    exact decodeCommand_of_encode (by decide) rfl
  case loadw | expand | seed | round | fold => exact decodeMicroOp_of_encode (by decide) rfl

end Sys2Proof.Proofs
end
